-- ==== Sys2Proof/Word.lean ====
section
/-! DEFINITION. The two word types of the hardware and the assembly of a register from byte lanes.
Fixed widths: a byte is 8 bits and a register 32 bits (00_scope.md R15). -/

namespace Sys2Proof

/-- An 8-bit byte: a buffer element, a symbol code, a version byte (R15). -/
abbrev Byte := BitVec 8

/-- A 32-bit register value, and a word of SHA-256 (R15, R117). -/
abbrev Word := BitVec 32

/-- A bus byte address, an offset from the block's base address (R15, R50). -/
abbrev Addr := BitVec 14

end Sys2Proof
end

