-- ==== Sys2Proof/Syntax.lean ====
section
/-! DEFINITION. The commands of the hardware, the error kinds, the result of a command, the bus transactions and
the moves of the outside world, as plain data. Nothing here has a meaning; meanings are in Machine. -/

namespace Sys2Proof

/-- The six commands (30_encoding.md R77), one constructor per row of the opcode table. Both operand fields of
format C (R76, R79) are kept in every command, also where the command ignores VER (R83), so that decoding drops
no bit. Every value of either field is a legal encoding (R78). -/
inductive Instr where
  /-- ENC, plain encode (R160). -/
  | enc (alph : BitVec 4) (ver : Byte)
  /-- ENCC, checksummed encode (R161). -/
  | encc (alph : BitVec 4) (ver : Byte)
  /-- ENCV, versioned-checksummed encode (R162). -/
  | encv (alph : BitVec 4) (ver : Byte)
  /-- DEC, plain decode (R175). -/
  | dec (alph : BitVec 4) (ver : Byte)
  /-- DECC, checksummed decode (R176). -/
  | decc (alph : BitVec 4) (ver : Byte)
  /-- DECV, versioned-checksummed decode (R177). -/
  | decv (alph : BitVec 4) (ver : Byte)
  deriving DecidableEq, Repr

/-- The explicit alphabet-tag operand of a command (R79). -/
def Instr.alph : Instr → BitVec 4
  | .enc a _ | .encc a _ | .encv a _ | .dec a _ | .decc a _ | .decv a _ => a

/-- The explicit version operand of a command, used by ENCV only (R79, R83). -/
def Instr.ver : Instr → Byte
  | .enc _ v | .encc _ v | .encv _ v | .dec _ v | .decc _ v | .decv _ v => v

/-- Why a word selects no command. Both bit-level reasons complete with IllegalCommand (R82, R83). -/
inductive Reject where
  /-- RSV, bits 31:16, is not zero. -/
  | reservedNotZero
  /-- OP, bits 3:0, is 0x0, 0x4 or 0x8..0xF. -/
  | noSuchOp
  /-- The bytes handed to the decoder are not the four lanes of one command word (R75). -/
  | notOneWord
  deriving DecidableEq, Repr

/-- The closed set of alphabets (40_alphabet_registry.md R95). -/
inductive Alphabet where
  | bitcoin
  | monero
  | flickr
  | ripple
  deriving DecidableEq, Repr

/-- The closed set of error kinds, the block's exception causes (60_exceptions.md R190). -/
inductive ErrorKind where
  /-- CMD.ALPH is 4..15. -/
  | invalidAlphabet
  /-- Decode input holds a byte that is no symbol of the alphabet. -/
  | invalidCharacter
  /-- Decoded length below the minimum of a checksummed decode. -/
  | tooShort
  /-- The recomputed tag differs from the last four decoded bytes. -/
  | checksumMismatch
  /-- The command word selects no command. -/
  | illegalCommand
  /-- IN_LEN > IN_CAP. -/
  | lengthError
  deriving DecidableEq, Repr

/-- What every command evaluates to (00_scope.md R19). -/
inductive Result where
  | ok (out : List Byte) (ver : Byte)
  | err (e : ErrorKind)
  deriving DecidableEq, Repr

/-- The five registers (10_state.md R20). -/
inductive Reg where
  | cmd
  | status
  | inLen
  | outLen
  | verOut
  deriving DecidableEq, Repr

/-- A bus transaction (20_memory.md R52). The size is any number: sizes other than 1 and 4 are answered ERROR. -/
inductive Txn where
  | memRead (addr : Addr) (size : Nat)
  | memWrite (addr : Addr) (size : Nat) (value : Word)
  deriving DecidableEq, Repr

/-- The response to a transaction (R52): OK(data) for a read, OK for a write, or ERROR. A 1-byte read answers
with the byte as a 32-bit value whose high bits are zero. -/
inductive Response where
  | data (value : Word)
  | ok
  | error
  deriving DecidableEq, Repr

/-- A move of the outside world. WAIT and DUMP (30_encoding.md R87) are moves of their own because which
transactions they are depends on the responses. -/
inductive Event where
  /-- One bus transaction of the host (R52). -/
  | bus (t : Txn)
  /-- WAIT: read STATUS until the value read has DONE set (R87). -/
  | waitDone
  /-- DUMP: read OUT_LEN, then that many bytes of OUT (R87). -/
  | dump
  /-- `rst` is asserted and released (70_reset_and_hazards.md R215, R216). -/
  | rst
  deriving DecidableEq, Repr

/-- The mnemonics of the textual syntax (30_encoding.md R86). -/
inductive Mnemonic where
  | enc
  | encc
  | encv
  | dec
  | decc
  | decv
  deriving DecidableEq, Repr

/-- The alphabet operand as written: a name, or `#n` for a raw tag (R86). -/
inductive AlphRef where
  | name (a : Alphabet)
  | raw (n : Nat)
  deriving DecidableEq, Repr

/-- One line of the textual syntax (R86): `MNEMONIC alphabet[, ver]`, or `.word w`. -/
inductive AsmLine where
  | cmd (m : Mnemonic) (a : AlphRef) (ver : Option Nat)
  | word (w : Word)
  deriving DecidableEq, Repr

end Sys2Proof
end

