-- ==== Sys2Proof/WellFormed.lean ====
section
/-! DEFINITION. Which terms of the syntax are well formed. Instr needs no check: its two operands have their
widths in the type and every value of them is a legal encoding (30_encoding.md R78, R83). The textual syntax
(R86) and the bus transactions (20_memory.md R52) do. -/

namespace Sys2Proof

/-- `#n` is written for a raw tag n in 0..15 (R86). -/
def AlphRef.wf : AlphRef → Bool
  | .name _ => true
  | .raw n => decide (n ≤ 15)

/-- `ver` is a number 0..255, given for ENCV (required) and DECV (optional) and for no other command (R86). -/
def Mnemonic.verWf : Mnemonic → Option Nat → Bool
  | .encv, some v => decide (v ≤ 255)
  | .encv, none => false
  | .decv, some v => decide (v ≤ 255)
  | .decv, none => true
  | .enc, v | .encc, v | .dec, v | .decc, v => v.isNone

/-- A line of the textual syntax that R86 allows. DESIGN CHOICE (log entry 17): R86 gives `.word` for words that select
no command and is silent on the others; here `.word w` is a line for every w. -/
def AsmLine.wf : AsmLine → Bool
  | .cmd m a ver => a.wf && m.verWf ver
  | .word _ => true

/-- A transaction in the sense of R52: the size is 1 or 4 bytes and a written value fits the size. What is not
one is answered ERROR (R53). -/
def Txn.wf : Txn → Bool
  | .memRead _ n => n == 1 || n == 4
  | .memWrite _ n v => (n == 1 && decide (v.toNat < 256)) || n == 4

end Sys2Proof
end

