-- ==== Sys2Proof/Decode.lean ====
section
/-! DEFINITION. Decoding a command word (30_encoding.md R76, R82), from a 32-bit value or from its four byte
lanes (20_memory.md R54); then the encoder, the assembler of the textual syntax (R86), and the decoder as the
opcode table numbers its bits. -/

namespace Sys2Proof

/-- OP = w[3:0] (R76). -/
def fieldOp (w : Word) : BitVec 4 := w.extractLsb' 0 4
/-- ALPH = w[7:4] (R76). -/
def fieldAlph (w : Word) : BitVec 4 := w.extractLsb' 4 4
/-- VER = w[15:8] (R76). -/
def fieldVer (w : Word) : Byte := w.extractLsb' 8 8
/-- RSV = w[31:16] (R76). -/
def fieldRsv (w : Word) : BitVec 16 := w.extractLsb' 16 16

/-- `decode_cmd(w)` (R82): total on all words. ALPH's range is not looked at. -/
def decodeCmd (w : Word) : Except Reject Instr :=
  if fieldRsv w ≠ 0 then .error .reservedNotZero
  else if fieldOp w = 0x1 then .ok (.enc (fieldAlph w) (fieldVer w))
  else if fieldOp w = 0x2 then .ok (.encc (fieldAlph w) (fieldVer w))
  else if fieldOp w = 0x3 then .ok (.encv (fieldAlph w) (fieldVer w))
  else if fieldOp w = 0x5 then .ok (.dec (fieldAlph w) (fieldVer w))
  else if fieldOp w = 0x6 then .ok (.decc (fieldAlph w) (fieldVer w))
  else if fieldOp w = 0x7 then .ok (.decv (fieldAlph w) (fieldVer w))
  else .error .noSuchOp

/-- The four byte lanes of a register, bits 7:0 at the lowest byte address (20_memory.md R54). -/
def lanes (w : Word) : List Byte :=
  [w.extractLsb' 0 8, w.extractLsb' 8 8, w.extractLsb' 16 8, w.extractLsb' 24 8]

/-- The register value that four byte lanes carry, lowest address first (R54). -/
def ofLanes (b0 b1 b2 b3 : Byte) : Word := b3 ++ b2 ++ b1 ++ b0

/-- Decoding on bytes, total: a command is exactly one word of four lanes (R75). -/
def decodeLanes : List Byte → Except Reject Instr
  | [b0, b1, b2, b3] => decodeCmd (ofLanes b0 b1 b2 b3)
  | _ => .error .notOneWord

/-- Format C with RSV = 0 (R76). -/
def formatC (op alph : BitVec 4) (ver : Byte) : Word := 0#16 ++ ver ++ alph ++ op

/-- OP of a command (R77). -/
def Instr.op : Instr → BitVec 4
  | .enc _ _ => 0x1
  | .encc _ _ => 0x2
  | .encv _ _ => 0x3
  | .dec _ _ => 0x5
  | .decc _ _ => 0x6
  | .decv _ _ => 0x7

/-- The command word of a command (R76, R77). -/
def encode (i : Instr) : Word := formatC i.op i.alph i.ver

/-- The tag of a named alphabet, in the order of the source's list (10_state.md R22, R95). -/
def Alphabet.tag : Alphabet → BitVec 4
  | .bitcoin => 0
  | .monero => 1
  | .flickr => 2
  | .ripple => 3

/-- The tag an alphabet operand of the textual syntax stands for (R86). -/
def AlphRef.tag : AlphRef → BitVec 4
  | .name a => a.tag
  | .raw n => BitVec.ofNat 4 n

/-- The command a mnemonic names, with its operands (R86). -/
def Mnemonic.instr (m : Mnemonic) (alph : BitVec 4) (ver : Byte) : Instr :=
  match m with
  | .enc => .enc alph ver
  | .encc => .encc alph ver
  | .encv => .encv alph ver
  | .dec => .dec alph ver
  | .decc => .decc alph ver
  | .decv => .decv alph ver

/-- The word of a line of the textual syntax; an ill-formed line has none (R86). -/
def assemble (l : AsmLine) : Option Word :=
  if l.wf then
    match l with
    | .cmd m a ver => some (encode (m.instr a.tag (BitVec.ofNat 8 (ver.getD 0))))
    | .word w => some w
  else none

/-- The word whose bits, numbered as the opcode table numbers them, are the low nbits of w. -/
def tableWord (nbits w : Nat) : Word := BitVec.ofNat 32 (w % 2 ^ nbits)

/-- The command the decoder reads from the four lanes of that word; no command is longer than 32 bits (R75). -/
def decodeTableWord (nbits w : Nat) : Option Instr :=
  if nbits ≤ 32 then (decodeLanes (lanes (tableWord nbits w))).toOption else none

end Sys2Proof
end

