-- ==== Sys2Proof/Config.lean ====
section
/-! DEFINITION. The configuration record (00_scope.md section 4) and the free values: what the spec leaves
unspecified is an opaque constant applied to a counter, so no proof can see a value. -/

namespace Sys2Proof

/-- The symbol tables, one row of symbol codes per alphabet, digit 0 first (R11, R97). -/
structure AlphabetTable where
  bitcoin : List Byte
  monero : List Byte
  flickr : List Byte
  ripple : List Byte
  deriving DecidableEq, Repr

/-- `ALPHABET[a]`. -/
def AlphabetTable.row (t : AlphabetTable) : Alphabet → List Byte
  | .bitcoin => t.bitcoin
  | .monero => t.monero
  | .flickr => t.flickr
  | .ripple => t.ripple

/-- A row is legal when it has exactly 58 symbols, pairwise distinct (R11, R99). -/
def rowOk (row : List Byte) : Bool := row.length == 58 && decide row.Nodup

/-- OUT_MIN(c), the least OUT capacity that no command can overflow (R10). -/
def outMin (c : Nat) : Nat := ((c + 5) * 138) / 100 + 1

/-- CONFIG_OK (70_reset_and_hazards.md R236; R9 to R11). -/
def configOk (inCap outCap : Nat) (t : AlphabetTable) : Bool :=
  decide (1 ≤ inCap) && decide (inCap ≤ 2962) &&
  decide (outMin inCap ≤ outCap) && decide (outCap ≤ 4096) &&
  rowOk t.bitcoin && rowOk t.monero && rowOk t.flickr && rowOk t.ripple

/-- The configuration of one instance of the block. It carries the proof that it is one of this hardware: with
an illegal capacity or table the build fails (R99, R11). -/
structure Config where
  /-- IN_CAP, capacity of the IN buffer in bytes (R9). -/
  inCap : Nat
  /-- OUT_CAP, capacity of the OUT buffer in bytes (R10). -/
  outCap : Nat
  /-- ALPHABET (R11). -/
  alphabets : AlphabetTable
  /-- CONFIG_OK (R236). -/
  ok : configOk inCap outCap alphabets = true
  deriving DecidableEq, Repr

/-- FREE VALUE (log entry 5). The n-th unspecified byte: what a read of an unspecified IN or OUT byte answers
(10_state.md R28, R37, R39; 20_memory.md R61). No body: nothing can evaluate it. -/
opaque Config.unspecifiedByte : Nat → Byte

/-- FREE VALUE (log entry 5). The n-th unspecified 32-bit value: what OUT_LEN and VER_OUT become at acceptance
and what a read of them answers while busy (R26, R29, R61, R195). No body. -/
opaque Config.unspecifiedWord : Nat → Word

/-- FREE VALUE (log entry 4). BUSY_TIME: how many moves of the outside world the port may still serve between an
acceptance and its completion step; finite, otherwise open (00_scope.md R14, 70 R233). It is applied to the draw counter
and to all that a command's result depends on, the accepted word, IN_LEN and the bytes of IN, because the busy time may
depend on the data (70 R234). No body. -/
opaque Config.busyTime : Nat → Word → Word → List (Nat × Byte) → Nat

end Sys2Proof
end

