-- ==== Sys2Proof/Machine/Tables.lean ====
section
/-! DEFINITION. The constant symbol tables (40_alphabet_registry.md R100) and the spec's default configuration
(00_scope.md R9 to R11). The rows are the spec author's general knowledge (G1) and a parameter: nothing is
proved from their values but that each has 58 distinct entries. -/

namespace Sys2Proof.Machine

/-- The bitcoin row, digit 0 first (R100). -/
def bitcoinRow : List Byte :=
  [0x31, 0x32, 0x33, 0x34, 0x35, 0x36, 0x37, 0x38, 0x39, 0x41] ++
  [0x42, 0x43, 0x44, 0x45, 0x46, 0x47, 0x48, 0x4a, 0x4b, 0x4c] ++
  [0x4d, 0x4e, 0x50, 0x51, 0x52, 0x53, 0x54, 0x55, 0x56, 0x57] ++
  [0x58, 0x59, 0x5a, 0x61, 0x62, 0x63, 0x64, 0x65, 0x66, 0x67] ++
  [0x68, 0x69, 0x6a, 0x6b, 0x6d, 0x6e, 0x6f, 0x70, 0x71, 0x72] ++
  [0x73, 0x74, 0x75, 0x76, 0x77, 0x78, 0x79, 0x7a]

/-- The monero row: the bitcoin row again (R100, C4). -/
def moneroRow : List Byte := bitcoinRow

/-- The flickr row (R100). -/
def flickrRow : List Byte :=
  [0x31, 0x32, 0x33, 0x34, 0x35, 0x36, 0x37, 0x38, 0x39, 0x61] ++
  [0x62, 0x63, 0x64, 0x65, 0x66, 0x67, 0x68, 0x69, 0x6a, 0x6b] ++
  [0x6d, 0x6e, 0x6f, 0x70, 0x71, 0x72, 0x73, 0x74, 0x75, 0x76] ++
  [0x77, 0x78, 0x79, 0x7a, 0x41, 0x42, 0x43, 0x44, 0x45, 0x46] ++
  [0x47, 0x48, 0x4a, 0x4b, 0x4c, 0x4d, 0x4e, 0x50, 0x51, 0x52] ++
  [0x53, 0x54, 0x55, 0x56, 0x57, 0x58, 0x59, 0x5a]

/-- The ripple row (R100). -/
def rippleRow : List Byte :=
  [0x72, 0x70, 0x73, 0x68, 0x6e, 0x61, 0x66, 0x33, 0x39, 0x77] ++
  [0x42, 0x55, 0x44, 0x4e, 0x45, 0x47, 0x48, 0x4a, 0x4b, 0x4c] ++
  [0x4d, 0x34, 0x50, 0x51, 0x52, 0x53, 0x54, 0x37, 0x56, 0x57] ++
  [0x58, 0x59, 0x5a, 0x32, 0x62, 0x63, 0x64, 0x65, 0x43, 0x67] ++
  [0x36, 0x35, 0x6a, 0x6b, 0x6d, 0x38, 0x6f, 0x46, 0x71, 0x69] ++
  [0x31, 0x74, 0x75, 0x76, 0x41, 0x78, 0x79, 0x7a]

/-- The four rows of R100. -/
def defaultTable : AlphabetTable where
  bitcoin := bitcoinRow
  monero := moneroRow
  flickr := flickrRow
  ripple := rippleRow

/-- The spec's defaults: IN_CAP 512 (R9), OUT_CAP 1024 (R10), the rows of R100. -/
def defaultConfig : Config where
  inCap := 512
  outCap := 1024
  alphabets := defaultTable
  ok := by decide +kernel

end Sys2Proof.Machine
end

