-- ==== Sys2Proof/Machine/State.lean ====
section
/-! DEFINITION. The state of one instance of the block (10_state.md R20), the reasons a step can stop, and the
state right after reset (R37). -/

namespace Sys2Proof.Machine

/-- A byte buffer: the bytes that have a value, as (element index, byte) pairs with strictly rising indices. An
unlisted element has NO value: it was never written since reset (IN, R39) or is unspecified (OUT, R28). -/
abbrev Memory := List Host.Cell

/-- The state. The first seven fields are the block's complete architectural state (R20); the last five are the
model's own (log entries 1, 2, 4, 5). -/
structure State where
  /-- CMD, the last accepted command word (R21). -/
  cmd : Word
  /-- STATUS (R23, R24). -/
  status : Word
  /-- IN_LEN (R25). -/
  inLen : Word
  /-- OUT_LEN (R26). -/
  outLen : Word
  /-- VER_OUT (R29). -/
  verOut : Word
  /-- IN, the bytes written since reset (R27, R39). -/
  inBuf : Memory
  /-- OUT, the bytes the spec gives a value (R28). -/
  outBuf : Memory
  /-- The configuration (R9 to R11), constant (log entry 1). -/
  cfg : Config
  /-- The moves of the outside world still to come, next first (log entry 2). -/
  events : List Event
  /-- The bus responses given so far, first first (log entry 2). -/
  responses : List Response
  /-- While busy: how many moves the port still serves before the completion step (R14, log entry 4). -/
  busyLeft : Nat
  /-- How many free values have been drawn (log entry 5). -/
  draws : Nat
  deriving DecidableEq, Repr

/-- No step of this hardware faults: command errors complete and set STATUS.ERR, bus errors are responses, and
"the block has no stuck state and no fault state that outlives a command" (60_exceptions.md R210). -/
inductive Fault where
  deriving DecidableEq, Repr

/-- Why a step has no meaning. -/
inductive Refusal where
  /-- Raised by an arm of exec for a command not modelled yet. Safe. No arm of this model raises it. -/
  | notModelled (mnemonic : String)
  /-- Raised by every command that has passed its prechecks when its input covers an IN byte never written since
  reset: "a model should treat that launch as refused" (10_state.md R39, 70 R236, D28, U3). Safe. -/
  | unwrittenInput
  deriving DecidableEq, Repr

/-- The state right after reset of a block with configuration c (R37): the five registers 0, no byte of IN or
OUT specified. The model's own fields start empty (log entries 2, 4, 5). -/
def State.resetOf (c : Config) : State where
  cmd := 0x00000000
  status := 0x00000000
  inLen := 0x00000000
  outLen := 0x00000000
  verOut := 0x00000000
  inBuf := []
  outBuf := []
  cfg := c
  events := []
  responses := []
  busyLeft := 0
  draws := 0

/-- The machine right after reset (R37, R219), in the spec's default configuration. -/
def State.reset : State := State.resetOf defaultConfig

end Sys2Proof.Machine
end

