-- ==== Sys2Proof/Machine/Sha256.lean ====
section
/-! DEFINITION. SHA-256 (41_checksum_unit.md section 3, R117 to R126), and the big-endian byte sequences of
00_scope.md R17 that it shares with the converter. -/

namespace Sys2Proof.Machine

/-- `be_bytes_N(v)`: the N-byte big-endian sequence of v (R17). -/
def beBytes : Nat → Nat → List Byte
  | 0, _ => []
  | n + 1, v => BitVec.ofNat 8 (v / 256 ^ n) :: beBytes n v

/-- A word from four message bytes, big-endian (R118). -/
def wordOf (b0 b1 b2 b3 : Byte) : Word := b0 ++ b1 ++ b2 ++ b3

/-- Padding (R119): 0x80, then the least number of zero bytes, then the bit length in 8 bytes. The number of zero
bytes is (55 - L) mod 64, written without a negative difference. -/
def shaPad (m : List Byte) : List Byte :=
  m ++ 0x80 :: List.replicate ((119 - m.length % 64) % 64) 0x00 ++ beBytes 8 (8 * m.length)

/-- The number of 64-byte blocks of a padded message of L bytes (R120). -/
def shaBlockCount (len : Nat) : Nat := (len + 8) / 64 + 1

/-- The first n 64-byte blocks of a byte sequence, first block first. -/
def shaBlocks : Nat → List Byte → List (List Byte)
  | 0, _ => []
  | n + 1, b => b.take 64 :: shaBlocks n (b.drop 64)

/-- Eight words: the hash words H0..H7, or the working words a..h (R124). -/
structure Hash8 where
  a : Word
  b : Word
  c : Word
  d : Word
  e : Word
  f : Word
  g : Word
  h : Word
  deriving DecidableEq, Repr

/-- The initial hash value (R122). -/
def shaInit : Hash8 where
  a := 0x6a09e667
  b := 0xbb67ae85
  c := 0x3c6ef372
  d := 0xa54ff53a
  e := 0x510e527f
  f := 0x9b05688c
  g := 0x1f83d9ab
  h := 0x5be0cd19

/-- R123's table of round constants, a row for each of its lines of four, K[0] first. -/
def shaKRows : List (List Word) :=
  [[0x428a2f98, 0x71374491, 0xb5c0fbcf, 0xe9b5dba5], [0x3956c25b, 0x59f111f1, 0x923f82a4, 0xab1c5ed5]] ++
  [[0xd807aa98, 0x12835b01, 0x243185be, 0x550c7dc3], [0x72be5d74, 0x80deb1fe, 0x9bdc06a7, 0xc19bf174]] ++
  [[0xe49b69c1, 0xefbe4786, 0x0fc19dc6, 0x240ca1cc], [0x2de92c6f, 0x4a7484aa, 0x5cb0a9dc, 0x76f988da]] ++
  [[0x983e5152, 0xa831c66d, 0xb00327c8, 0xbf597fc7], [0xc6e00bf3, 0xd5a79147, 0x06ca6351, 0x14292967]] ++
  [[0x27b70a85, 0x2e1b2138, 0x4d2c6dfc, 0x53380d13], [0x650a7354, 0x766a0abb, 0x81c2c92e, 0x92722c85]] ++
  [[0xa2bfe8a1, 0xa81a664b, 0xc24b8b70, 0xc76c51a3], [0xd192e819, 0xd6990624, 0xf40e3585, 0x106aa070]] ++
  [[0x19a4c116, 0x1e376c08, 0x2748774c, 0x34b0bcb5], [0x391c0cb3, 0x4ed8aa4a, 0x5b9cca4f, 0x682e6ff3]] ++
  [[0x748f82ee, 0x78a5636f, 0x84c87814, 0x8cc70208], [0x90befffa, 0xa4506ceb, 0xbef9a3f7, 0xc67178f2]]

/-- The round constants K[0..63] in order (R123). -/
def shaK : List Word := shaKRows.flatten

/-- ROTR by p, by q and by r, xored: the shape of both BSIG functions (R124). -/
def shaRotations (p q r : Nat) (x : Word) : Word := x.rotateRight p ^^^ x.rotateRight q ^^^ x.rotateRight r

/-- ROTR by p and by q and SHR by r, xored: the shape of both SSIG functions (R124). -/
def shaRotationsShift (p q r : Nat) (x : Word) : Word := x.rotateRight p ^^^ x.rotateRight q ^^^ x >>> r

/-- `BSIG0` (R124). -/
def shaBsig0 : Word → Word := shaRotations 2 13 22

/-- `Maj`, applied with `BSIG0` (R124). -/
def shaMaj (x y z : Word) : Word := (x &&& y) ^^^ (x &&& z) ^^^ (y &&& z)

/-- `BSIG1` (R124). -/
def shaBsig1 : Word → Word := shaRotations 6 11 25

/-- `Ch`, applied with `BSIG1` (R124). -/
def shaCh (x y z : Word) : Word := (x &&& y) ^^^ (~~~x &&& z)

/-- `SSIG0` (R124). -/
def shaSsig0 : Word → Word := shaRotationsShift 7 18 3

/-- `SSIG1` (R124). -/
def shaSsig1 : Word → Word := shaRotationsShift 17 19 10

/-- The words of a block, four bytes each (R125). -/
def shaWords : List Byte → List Word
  | b0 :: b1 :: b2 :: b3 :: rest => wordOf b0 b1 b2 b3 :: shaWords rest
  | _ => []

/-- n further words of the schedule. The list is newest first, so W[t-2], W[t-7], W[t-15] and W[t-16] stand at
positions 1, 6, 14 and 15 (R125). -/
def shaExtend : Nat → List Word → List Word
  | 0, w => w
  | n + 1, w =>
    shaExtend n ((shaSsig1 (w.getD 1 0) + w.getD 6 0 + shaSsig0 (w.getD 14 0) + w.getD 15 0) :: w)

/-- The message schedule W[0..63] of a block, W[0] first (R125). -/
def shaSchedule (block : List Byte) : List Word := (shaExtend 48 (shaWords block).reverse).reverse

/-- One round with constant k and schedule word w (R125). -/
def shaRound (v : Hash8) (kw : Word × Word) : Hash8 :=
  let t1 := v.h + shaBsig1 v.e + shaCh v.e v.f v.g + kw.1 + kw.2
  let t2 := shaBsig0 v.a + shaMaj v.a v.b v.c
  { a := t1 + t2, b := v.a, c := v.b, d := v.c, e := v.d + t1, f := v.e, g := v.f, h := v.g }

/-- Compression of one block into the hash words (R125). -/
def shaCompress (hw : Hash8) (block : List Byte) : Hash8 :=
  let v := (shaK.zip (shaSchedule block)).foldl shaRound hw
  { a := hw.a + v.a, b := hw.b + v.b, c := hw.c + v.c, d := hw.d + v.d
    e := hw.e + v.e, f := hw.f + v.f, g := hw.g + v.g, h := hw.h + v.h }

/-- The digest: the eight hash words written out big-endian, H0 first (R118, R126). -/
def shaDigest (hw : Hash8) : List Byte :=
  beBytes 4 hw.a.toNat ++ beBytes 4 hw.b.toNat ++ beBytes 4 hw.c.toNat ++ beBytes 4 hw.d.toNat ++
  beBytes 4 hw.e.toNat ++ beBytes 4 hw.f.toNat ++ beBytes 4 hw.g.toNat ++ beBytes 4 hw.h.toNat

/-- `sha256(M)` (R126). -/
def sha256 (m : List Byte) : List Byte :=
  shaDigest ((shaBlocks (shaBlockCount m.length) (shaPad m)).foldl shaCompress shaInit)

end Sys2Proof.Machine
end

