-- ==== Sys2Proof/Machine/Checksum.lean ====
section
/-! DEFINITION. The double_hash_checksum_unit (41_checksum_unit.md R110 to R116). -/

namespace Sys2Proof.Machine

/-- The input of the first hash pass: the version byte, if present, then the payload (R111). -/
def checksumInput (payload : List Byte) (version : Option Byte) : List Byte :=
  match version with
  | some v => v :: payload
  | none => payload

/-- `checksum(payload, version)` (R110, R111): the first 4 bytes of the double hash. -/
def checksum (payload : List Byte) (version : Option Byte) : List Byte :=
  (sha256 (sha256 (checksumInput payload version))).take 4

end Sys2Proof.Machine
end

