-- ==== Sys2Proof/Machine/Registry.lean ====
section
/-! DEFINITION. The alphabet registry (40_alphabet_registry.md): the lookup of a tag and the two lookups in a
row. -/

namespace Sys2Proof.Machine

/-- `lookup(alph)` (R96): tags 0..3 in the order of R95; 4..15 raise InvalidAlphabet, never a default. -/
def lookup (alph : BitVec 4) : Except ErrorKind Alphabet :=
  if alph = 0 then .ok .bitcoin
  else if alph = 1 then .ok .monero
  else if alph = 2 then .ok .flickr
  else if alph = 3 then .ok .ripple
  else .error .invalidAlphabet

/-- `ALPHABET[a][d]` for the row of a (R97). Never applied outside 0..57; the value there is immaterial. -/
def symbol (row : List Byte) (d : Nat) : Byte := row.getD d 0x00

/-- `INVERSE[a][c]` for the row of a (R98): the digit whose symbol is c, if there is one. -/
def inverse (row : List Byte) (c : Byte) : Option Nat :=
  if c ∈ row then some (row.idxOf c) else none

/-- `ZERO[a]`, the zero-digit symbol (R101). -/
def zeroSymbol (row : List Byte) : Byte := symbol row 0

end Sys2Proof.Machine
end

