-- ==== Sys2Proof/Machine/Converter.lean ====
section
/-! DEFINITION. The base converter (42_base_converter.md): the mathematical functions the commands use (R135 to
R148), then the bounded-width datapaths that compute the same digits and bytes (R150, R151). A row is a row of
ALPHABET. All quantities are unbounded naturals (R154). -/

namespace Sys2Proof.Machine

/-- `be_nat(b)`: the byte sequence as a big-endian unsigned integer (00_scope.md R17, R136). -/
def beNat (b : List Byte) : Nat := b.foldl (fun acc x => acc * 256 + x.toNat) 0

/-- Repeated division, at most fuel times, collecting remainders until the value is 0 (R137). -/
def digitsAux (base : Nat) : Nat → Nat → List Nat
  | 0, _ => []
  | fuel + 1, v => if v = 0 then [] else (v % base) :: digitsAux base fuel (v / base)

/-- The digits of v, least significant first, none for 0 (R137). A value has at most as many digits in a base of
2 or more as it has bits, so the fuel never runs out. -/
def digitsLe (base v : Nat) : List Nat := digitsAux base (v.log2 + 1) v

/-- `digits58_be(v)` (R137). -/
def digits58Be (v : Nat) : List Nat := (digitsLe 58 v).reverse

/-- `be_bytes_min(v)`: the shortest big-endian byte sequence of v (R17). -/
def beBytesMin (v : Nat) : List Byte := (digitsLe 256 v).reverse.map (BitVec.ofNat 8)

/-- The number of leading elements equal to z: `lz` with z = 0x00 (R138), `lzs` with z = ZERO[a] (R146). -/
def leadingCount (z : Byte) (b : List Byte) : Nat := (b.takeWhile (· == z)).length

/-- `to_base58(b, a)` (R139). -/
def toBase58 (row : List Byte) (b : List Byte) : List Byte :=
  List.replicate (leadingCount 0x00 b) (zeroSymbol row) ++ (digits58Be (beNat b)).map (symbol row)

/-- The digits of a text, or none if some byte of it is no symbol of the row (R145). -/
def textDigits (row : List Byte) : List Byte → Option (List Nat)
  | [] => some []
  | c :: t =>
    match inverse row c, textDigits row t with
    | some d, some ds => some (d :: ds)
    | _, _ => none

/-- The fold of R147: value = value * 58 + digit, left to right from 0. -/
def foldDigits (ds : List Nat) : Nat := ds.foldl (fun value d => value * 58 + d) 0

/-- `from_base58(t, a)` (R148): the bytes, or none where it raises InvalidCharacter. -/
def fromBase58 (row : List Byte) (t : List Byte) : Option (List Byte) :=
  match textDigits row t with
  | none => none
  | some ds =>
    let z := leadingCount (zeroSymbol row) t
    some (List.replicate z 0x00 ++ beBytesMin (foldDigits (ds.drop z)))

/-- One input element through a datapath's array, least significant first: multiply by mul, add, and write back
in the array's base (the inner loops of R150 and R151). What is left of the carry extends the array. -/
def mulAddPass (mul base : Nat) : List Nat → Nat → List Nat
  | [], carry => digitsLe base carry
  | d :: ds, carry => (carry + d * mul) % base :: mulAddPass mul base ds ((carry + d * mul) / base)

/-- Every value the variable carry takes in the inner loop of that pass (R150, R151). -/
def passCarries (mul base : Nat) : List Nat → Nat → List Nat
  | [], carry => [carry]
  | d :: ds, carry => carry :: (carry + d * mul) :: passCarries mul base ds ((carry + d * mul) / base)

/-- The encode datapath (R150): base-58 digits, least significant first, of the bytes after the leading zeros. -/
def encodeArray (b : List Byte) : List Nat :=
  (b.drop (leadingCount 0x00 b)).foldl (fun arr x => mulAddPass 256 58 arr x.toNat) []

/-- The decode datapath (R151): bytes, least significant first, of the digits after the leading zero symbols. -/
def decodeArray (ds : List Nat) : List Nat :=
  ds.foldl (fun arr d => mulAddPass 58 256 arr d) []

end Sys2Proof.Machine
end

