-- ==== Sys2Proof/Machine/Flags.lean ====
section
/-! DEFINITION. STATUS, its fields and the only words ever written to it (10_state.md R24, R33). The block has
no carry, zero, sign or overflow flag (R33). -/

namespace Sys2Proof.Machine

/-- STATUS.BUSY, bit 0 (R24). -/
def statusBusy (w : Word) : Bool := w.getLsbD 0
/-- STATUS.DONE, bit 1 (R24). -/
def statusDone (w : Word) : Bool := w.getLsbD 1
/-- STATUS.FAIL, bit 2 (R24). -/
def statusFail (w : Word) : Bool := w.getLsbD 2
/-- STATUS.ERR, bits 11:8 (R24). -/
def statusErr (w : Word) : BitVec 4 := w.extractLsb' 8 4

/-- The code of an error kind in STATUS.ERR (R24; 60_exceptions.md R190). -/
def errCode : ErrorKind → BitVec 4
  | .invalidAlphabet => 1
  | .invalidCharacter => 2
  | .tooShort => 3
  | .checksumMismatch => 4
  | .illegalCommand => 5
  | .lengthError => 6

/-- What acceptance writes: BUSY 1, DONE 0, FAIL 0, ERR 0 (R195). -/
def statusAccepted : Word := 0x00000001

/-- What a successful completion writes: BUSY 0, DONE 1, FAIL 0, ERR 0 (R196). -/
def statusSuccess : Word := 0x00000002

/-- What a completion with an error writes: BUSY 0, DONE 1, FAIL 1, ERR code(e) (R197). -/
def statusFailure (e : ErrorKind) : Word := 0x00000006 + ((errCode e).setWidth 32 <<< 8)

/-- The block is busy: the engine's step is enabled (R196). -/
def State.busy (s : State) : Bool := statusBusy s.status

end Sys2Proof.Machine
end

