-- ==== Sys2Proof/Machine/Ops.lean ====
section
/-! DEFINITION. The named operations: buffers, free values, acceptance (60_exceptions.md R195), completion
(R196) and taking an error (R197), reset (70_reset_and_hazards.md R215, R216). -/

namespace Sys2Proof.Machine

/-- The byte at an element index, or none where the buffer has no value. -/
def Memory.read : Memory → Nat → Option Byte
  | [], _ => none
  | (k, b) :: m, i => if k = i then some b else Memory.read m i

/-- Store a byte, keeping the indices strictly rising. An unlisted element has no value, so no byte value is
ever removed by a write. -/
def Memory.write : Memory → Nat → Byte → Memory
  | [], i, b => [(i, b)]
  | (k, c) :: m, i, b =>
    if i < k then (i, b) :: (k, c) :: m
    else if i = k then (i, b) :: m
    else (k, c) :: Memory.write m i b

/-- The buffer that holds exactly the bytes bs from index start on. -/
def Memory.ofBytes (start : Nat) : List Byte → Memory
  | [] => []
  | b :: bs => (start, b) :: Memory.ofBytes (start + 1) bs

/-- The n bytes from index start on, or none where one of them has no value. -/
def Memory.readRange (m : Memory) (start : Nat) : Nat → Option (List Byte)
  | 0 => some []
  | n + 1 =>
    match Memory.read m start, Memory.readRange m (start + 1) n with
    | some b, some bs => some (b :: bs)
    | _, _ => none

/-- The canonical form: indices strictly rising. -/
def Memory.wf : Memory → Bool
  | [] => true
  | [_] => true
  | (a, _) :: (b, c) :: m => decide (a < b) && Memory.wf ((b, c) :: m)

/-- Draw an unspecified byte (log entry 5). -/
def State.drawByte (s : State) : Byte × State :=
  (Config.unspecifiedByte s.draws, { s with draws := s.draws + 1 })

/-- Draw an unspecified 32-bit value (log entry 5). -/
def State.drawWord (s : State) : Word × State :=
  (Config.unspecifiedWord s.draws, { s with draws := s.draws + 1 })

/-- Acceptance of the command word w (R195): CMD <- w, STATUS <- BUSY, and OUT_LEN, VER_OUT and all of OUT become
unspecified. The busy time is open and may depend on the word and on the input (R14, R234, log entry 4). -/
def State.accept (s : State) (w : Word) : State :=
  { s with
    cmd := w
    status := statusAccepted
    outLen := Config.unspecifiedWord s.draws
    verOut := Config.unspecifiedWord (s.draws + 1)
    outBuf := []
    busyLeft := Config.busyTime (s.draws + 2) w s.inLen s.inBuf
    draws := s.draws + 3 }

/-- Completion with `Ok(out, ver)` (R196). OUT beyond out stays unspecified. -/
def State.completeOk (s : State) (out : List Byte) (ver : Byte) : State :=
  { s with
    outBuf := Memory.ofBytes 0 out
    outLen := BitVec.ofNat 32 out.length
    verOut := ver.setWidth 32
    status := statusSuccess }

/-- Taking an error: completion with `Err(e)` (R197), the block's whole trap entry. There is no return operation
(R200). -/
def State.completeErr (s : State) (e : ErrorKind) : State :=
  { s with
    outBuf := []
    outLen := 0
    verOut := 0
    status := statusFailure e }

/-- The completion step for a result (R196, R197). -/
def State.complete (s : State) : Result → State
  | .ok out ver => s.completeOk out ver
  | .err e => s.completeErr e

/-- `rst` (R215, R216): every piece of the block's state takes its reset value (10_state.md R37) and a command
in flight is abandoned. The outside world's remaining moves and the responses it holds are its own. -/
def State.applyReset (s : State) : State :=
  { State.resetOf s.cfg with
    events := s.events
    responses := s.responses
    draws := s.draws }

/-- CMD holds w, it has been accepted, and the completion step is due: what the engine fetches its command from
(R195, R198). -/
def State.launchWord (s : State) (w : Word) : State :=
  { s with cmd := w, status := statusAccepted, busyLeft := 0 }

end Sys2Proof.Machine
end

