-- ==== Sys2Proof/Machine/Operands.lean ====
section
/-! DEFINITION. The operands common to all commands: the checked alphabet tag, the checked input length and the
input bytes (30_encoding.md R79, R80; 60_exceptions.md R194), and the frame in which every command is evaluated
and completes (R198, R196, R197). -/

namespace Sys2Proof.Machine

/-- `precheck` after decoding (R194): InvalidAlphabet, then LengthError, else the alphabet. -/
def precheck (cfg : Config) (inLen : Word) (alph : BitVec 4) : Except ErrorKind Alphabet :=
  match lookup alph with
  | .error e => .error e
  | .ok a => if inLen.toNat > cfg.inCap then .error .lengthError else .ok a

/-- `input = IN[0 .. IN_LEN)`, or none if it covers a byte never written since reset (10_state.md R27, R39). -/
def inputBytes (inLen : Word) (inBuf : Memory) : Option (List Byte) :=
  Memory.readRange inBuf 0 inLen.toNat

/-- `Exec` (R198) for a command whose own part, on the row of its alphabet and its input, is body. It depends on
nothing but the configuration, IN_LEN and IN (10_state.md R35). None: the launch is refused (R39). -/
def evaluate (cfg : Config) (inLen : Word) (inBuf : Memory) (alph : BitVec 4)
    (body : List Byte → List Byte → Result) : Option Result :=
  match precheck cfg inLen alph with
  | .error e => some (.err e)
  | .ok a =>
    match inputBytes inLen inBuf with
    | none => none
    | some input => some (body (cfg.alphabets.row a) input)

/-- The completion step of a command (R196, R197). -/
def runCommand (s : State) (alph : BitVec 4) (body : List Byte → List Byte → Result) :
    Host.Outcome State Fault Refusal :=
  match evaluate s.cfg s.inLen s.inBuf alph body with
  | some r => .next (s.complete r)
  | none => .refused .unwrittenInput

end Sys2Proof.Machine
end

