-- ==== Sys2Proof/Machine/DecodeCommands.lean ====
section
/-! DEFINITION. The decode commands (44_decode_commands.md): what each evaluates to on the row of its alphabet
and its input text, errors in the order of R180, and the meaning of each, its completion step. -/

namespace Sys2Proof.Machine

/-- DEC's own part (R175). -/
def decResult (row input : List Byte) : Result :=
  match fromBase58 row input with
  | none => .err .invalidCharacter
  | some d => .ok d 0

/-- DECC's own part (R176): the last four decoded bytes are the tag of the rest. -/
def deccResult (row input : List Byte) : Result :=
  match fromBase58 row input with
  | none => .err .invalidCharacter
  | some d =>
    if d.length < 4 then .err .tooShort
    else if checksum (d.take (d.length - 4)) none ≠ d.drop (d.length - 4) then .err .checksumMismatch
    else .ok (d.take (d.length - 4)) 0

/-- DECV's own part (R177): the first decoded byte is the version, the last four are the tag. -/
def decvResult (row input : List Byte) : Result :=
  match fromBase58 row input with
  | none => .err .invalidCharacter
  | some [] => .err .tooShort
  | some (version :: rest) =>
    if rest.length < 4 then .err .tooShort
    else if checksum (rest.take (rest.length - 4)) (some version) ≠ rest.drop (rest.length - 4) then
      .err .checksumMismatch
    else .ok (rest.take (rest.length - 4)) version

/-- DEC (R175). VER is ignored (R83). -/
def execDec (alph : BitVec 4) (_ver : Byte) (s : State) : Host.Outcome State Fault Refusal :=
  runCommand s alph decResult

/-- DECC (R176). VER is ignored (R83). -/
def execDecc (alph : BitVec 4) (_ver : Byte) (s : State) : Host.Outcome State Fault Refusal :=
  runCommand s alph deccResult

/-- DECV (R177). VER carries the version hint, which has no effect (R182). -/
def execDecv (alph : BitVec 4) (_hint : Byte) (s : State) : Host.Outcome State Fault Refusal :=
  runCommand s alph decvResult

end Sys2Proof.Machine
end

