-- ==== Sys2Proof/Machine/EncodeCommands.lean ====
section
/-! DEFINITION. The encode commands (43_encode_commands.md): what each evaluates to on the row of its alphabet
and its input, and the meaning of each, its completion step. -/

namespace Sys2Proof.Machine

/-- ENC's own part (R160). -/
def encResult (row input : List Byte) : Result := .ok (toBase58 row input) 0

/-- ENCC's own part (R161): the tag follows the payload. -/
def enccResult (row input : List Byte) : Result := .ok (toBase58 row (input ++ checksum input none)) 0

/-- ENCV's own part (R162): the version byte is hashed and encoded in front of the payload. -/
def encvResult (ver : Byte) (row input : List Byte) : Result :=
  .ok (toBase58 row ([ver] ++ input ++ checksum input (some ver))) 0

/-- ENC (R160). VER is ignored (R83). -/
def execEnc (alph : BitVec 4) (_ver : Byte) (s : State) : Host.Outcome State Fault Refusal :=
  runCommand s alph encResult

/-- ENCC (R161). VER is ignored (R83). -/
def execEncc (alph : BitVec 4) (_ver : Byte) (s : State) : Host.Outcome State Fault Refusal :=
  runCommand s alph enccResult

/-- ENCV (R162). -/
def execEncv (alph : BitVec 4) (ver : Byte) (s : State) : Host.Outcome State Fault Refusal :=
  runCommand s alph (encvResult ver)

end Sys2Proof.Machine
end

