-- ==== Sys2Proof/Machine/Dispatch.lean ====
section
/-! DEFINITION. The dispatch of `Exec` (60_exceptions.md R198): one arm per command, one direct call each. -/

namespace Sys2Proof.Machine

def exec (i : Instr) (s : State) : Host.Outcome State Fault Refusal :=
  match i with
  | .enc alph ver => Sys2Proof.Machine.execEnc alph ver s
  | .encc alph ver => Sys2Proof.Machine.execEncc alph ver s
  | .encv alph ver => Sys2Proof.Machine.execEncv alph ver s
  | .dec alph ver => Sys2Proof.Machine.execDec alph ver s
  | .decc alph ver => Sys2Proof.Machine.execDecc alph ver s
  | .decv alph hint => Sys2Proof.Machine.execDecv alph hint s

end Sys2Proof.Machine
end

