-- ==== Sys2Proof/Machine/Bus.lean ====
section
/-! DEFINITION. The slave port (20_memory.md): the address map (R51) and the transactions (R52, R53, R57, R60,
R61). A transaction that is not legal is answered ERROR and changes nothing. -/

namespace Sys2Proof.Machine

/-- What stands at a bus address (R51). -/
inductive Place where
  | reg (r : Reg)
  | inByte (i : Nat)
  | outByte (i : Nat)
  | unmapped
  deriving DecidableEq, Repr

/-- The byte offset of a register (R51). -/
def regOffset : Reg → Nat
  | .cmd => 0x0000
  | .status => 0x0004
  | .inLen => 0x0008
  | .outLen => 0x000C
  | .verOut => 0x0010

/-- The byte offset of IN[0] (R51). -/
def inBase : Nat := 0x1000

/-- The byte offset of OUT[0] (R51). -/
def outBase : Nat := 0x2000

/-- The address map (R51). A register stands at its exact offset only (R57). -/
def placeAt (cfg : Config) (addr : Addr) : Place :=
  let a := addr.toNat
  if a = regOffset .cmd then .reg .cmd
  else if a = regOffset .status then .reg .status
  else if a = regOffset .inLen then .reg .inLen
  else if a = regOffset .outLen then .reg .outLen
  else if a = regOffset .verOut then .reg .verOut
  else if inBase ≤ a ∧ a < inBase + cfg.inCap then .inByte (a - inBase)
  else if outBase ≤ a ∧ a < outBase + cfg.outCap then .outByte (a - outBase)
  else .unmapped

/-- A host read of a register (R53 item 1). While busy, OUT_LEN and VER_OUT read as an unspecified value (R61). -/
def readReg (s : State) : Reg → Word × State
  | .cmd => (s.cmd, s)
  | .status => (s.status, s)
  | .inLen => (s.inLen, s)
  | .outLen => if s.busy then s.drawWord else (s.outLen, s)
  | .verOut => if s.busy then s.drawWord else (s.verOut, s)

/-- A buffer byte as a host read sees it: the byte, or an unspecified value where there is none (R28, R39, U3). -/
def readByte (s : State) (b : Option Byte) : Byte × State :=
  match b with
  | some x => (x, s)
  | none => s.drawByte

/-- `MemRead(addr, n)` (R52, R53). -/
def busRead (s : State) (addr : Addr) (size : Nat) : Response × State :=
  match placeAt s.cfg addr with
  | .reg r => if size = 4 then (.data (readReg s r).1, (readReg s r).2) else (.error, s)
  | .inByte i =>
    if size = 1 then
      (.data ((readByte s (Memory.read s.inBuf i)).1.setWidth 32), (readByte s (Memory.read s.inBuf i)).2)
    else (.error, s)
  | .outByte i =>
    if size = 1 then
      if s.busy then (.data (s.drawByte.1.setWidth 32), s.drawByte.2)
      else (.data ((readByte s (Memory.read s.outBuf i)).1.setWidth 32), (readByte s (Memory.read s.outBuf i)).2)
    else (.error, s)
  | .unmapped => (.error, s)

/-- `MemWrite(addr, n, v)` (R52, R53, R60). A write of CMD is acceptance (R195). -/
def busWrite (s : State) (addr : Addr) (size : Nat) (value : Word) : Response × State :=
  match placeAt s.cfg addr with
  | .reg .cmd => if size = 4 ∧ s.busy = false then (.ok, s.accept value) else (.error, s)
  | .reg .inLen => if size = 4 ∧ s.busy = false then (.ok, { s with inLen := value }) else (.error, s)
  | .reg .status => (.error, s)
  | .reg .outLen => (.error, s)
  | .reg .verOut => (.error, s)
  | .inByte i =>
    if size = 1 ∧ value.toNat < 256 ∧ s.busy = false then
      (.ok, { s with inBuf := Memory.write s.inBuf i (value.setWidth 8) })
    else (.error, s)
  | .outByte _ => (.error, s)
  | .unmapped => (.error, s)

/-- The response to a transaction and the state after it (R52). -/
def busAccess (s : State) : Txn → Response × State
  | .memRead addr size => busRead s addr size
  | .memWrite addr size value => busWrite s addr size value

end Sys2Proof.Machine
end

