-- ==== Sys2Proof/Machine/HostMoves.lean ====
section
/-! DEFINITION. The moves of the outside world: one transaction at a time in order (20_memory.md R63), the
polling loop and the read-out (30_encoding.md R87), `rst` (70_reset_and_hazards.md R215), and the host-side
notation of R87 as lists of moves. -/

namespace Sys2Proof.Machine

/-- Serve a transaction and hand its response to the host. -/
def serve (s : State) (t : Txn) : State :=
  { (busAccess s t).2 with responses := (busAccess s t).2.responses ++ [(busAccess s t).1] }

/-- The transaction WAIT repeats: a read of STATUS (R87). -/
def statusPoll : Txn := .memRead (BitVec.ofNat 14 (regOffset .status)) 4

/-- The response says that STATUS has DONE set (R87). -/
def sawDone : Response → Bool
  | .data v => statusDone v
  | .ok => false
  | .error => false

/-- The OUT reads of a DUMP that read n from OUT_LEN (R87). Offsets are 14 bits, so no read lies beyond the
window's 0x2000 offsets (log entry 9). -/
def dumpReads (n : Nat) : List Event :=
  (List.range (min n 0x2000)).map (fun i => .bus (.memRead (BitVec.ofNat 14 (outBase + i)) 1))

/-- What a DUMP does with the response to its read of OUT_LEN (R87). -/
def dumpRest : Response → List Event
  | .data n => dumpReads n.toNat
  | .ok => []
  | .error => []

/-- One move of the outside world, already taken off the list of s. -/
def hostMove (s : State) : Event → State
  | .bus t => serve s t
  | .waitDone =>
    if sawDone (busAccess s statusPoll).1 then serve s statusPoll
    else { serve s statusPoll with events := .waitDone :: s.events }
  | .dump =>
    let t : Txn := .memRead (BitVec.ofNat 14 (regOffset .outLen)) 4
    { serve s t with events := dumpRest (busAccess s t).1 ++ s.events }
  | .rst => s.applyReset

/-- The next move is taken off the list; each move uses up one unit of the busy time (R14, log entry 4). -/
def State.popEvent (s : State) (rest : List Event) : State :=
  { s with events := rest, busyLeft := s.busyLeft - 1 }

/-- It is the engine's turn: a command is in flight, and either its busy time is over or the outside world has
nothing left to do (R196, R233, log entry 4). -/
def State.engineTurn (s : State) : Bool := s.busy && (s.events.isEmpty || s.busyLeft == 0)

/-- `WR reg, v` (R87). -/
def hostWr (r : Reg) (v : Word) : List Event := [.bus (.memWrite (BitVec.ofNat 14 (regOffset r)) 4 v)]

/-- `RD reg` (R87). -/
def hostRd (r : Reg) : List Event := [.bus (.memRead (BitVec.ofNat 14 (regOffset r)) 4)]

/-- The byte writes of `LOAD`, from element i on (R87), for elements with a 14-bit offset; `hostLoad` gives it no others
(log entry 18). -/
def hostBytes (i : Nat) : List Byte → List Event
  | [] => []
  | b :: bs => .bus (.memWrite (BitVec.ofNat 14 (inBase + i)) 1 (b.setWidth 32)) :: hostBytes (i + 1) bs

/-- `LOAD b0 b1 ...`: the bytes, then IN_LEN (R87). DESIGN CHOICE (log entry 18): an element from 0x3000 on has no
14-bit offset, so there is no transaction for it and none is made; the IN_LEN written is the count modulo 2^32. -/
def hostLoad (bs : List Byte) : List Event :=
  hostBytes 0 (bs.take 0x3000) ++ hostWr .inLen (BitVec.ofNat 32 bs.length)

/-- The symbol codes of a text, its ASCII codes (R81). DESIGN CHOICE (log entry 19): a character that has no ASCII code,
for which R87 gives no byte, loads as its code point modulo 256. -/
def ascii (text : String) : List Byte := text.toList.map (fun c => BitVec.ofNat 8 c.toNat)

/-- `LOADS "text"` (R87). -/
def hostLoads (text : String) : List Event := hostLoad (ascii text)

/-- `GO cmd` (R87). -/
def hostGo (w : Word) : List Event := hostWr .cmd w

end Sys2Proof.Machine
end

