-- ==== Sys2Proof/Machine/Engine.lean ====
section
/-! DEFINITION. The engine's one step (60_exceptions.md R196 to R198): decode the accepted word and complete. -/

namespace Sys2Proof.Machine

/-- A word that selects no command completes with IllegalCommand before anything else is looked at (R191). -/
def engineStep (s : State) : Host.Outcome State Fault Refusal :=
  match decodeCmd s.cmd with
  | .ok i => exec i s
  | .error _ => .next (s.completeErr .illegalCommand)

end Sys2Proof.Machine
end

