-- ==== Sys2Proof/Machine/Step.lean ====
section
/-! DEFINITION. One step of the machine: the engine's completion step when it is its turn, else the next move of
the outside world, else nothing happens (70_reset_and_hazards.md R219: nothing executes by itself). -/

namespace Sys2Proof.Machine

/-- One step (00_scope.md R8; 20_memory.md R63, R64). -/
def step (s : State) : Host.Outcome State Fault Refusal :=
  if s.engineTurn then engineStep s
  else
    match s.events with
    | [] => .next s
    | e :: rest => .next (hostMove (s.popEvent rest) e)

/-- s with the word w (numbered as the opcode table numbers it) accepted in CMD and its completion step due, so
that the very next step runs it (log entry 10). -/
def State.withFetchWord (s : State) (nbits w : Nat) : State := s.launchWord (tableWord nbits w)

end Sys2Proof.Machine
end

