-- ==== Sys2Proof/Safety.lean ====
section
/-! DEFINITION. What claims about this hardware are stated in: the invariant of every reachable state, the
premises of a claim about a command (70_reset_and_hazards.md R236), what a completed command leaves (60 R196,
R197), and what is observed of it (R235). -/

namespace Sys2Proof.Machine

/-- The nine values STATUS can have (10_state.md R24). -/
def statusLegal (w : Word) : Bool :=
  w == 0x00000000 || w == 0x00000001 || w == 0x00000002 || w == 0x00000106 || w == 0x00000206 ||
  w == 0x00000306 || w == 0x00000406 || w == 0x00000506 || w == 0x00000606

/-- Every byte of the buffer lies below the capacity. -/
def Memory.within (m : Memory) (cap : Nat) : Bool := m.all (fun c => decide (c.1 < cap))

/-- The invariant that every step keeps. -/
structure Inv (s : State) : Prop where
  /-- STATUS has one of its nine values (R24). -/
  status : statusLegal s.status = true
  /-- IN is in canonical form. -/
  inWf : Memory.wf s.inBuf = true
  /-- IN has IN_CAP bytes (R27). -/
  inWithin : Memory.within s.inBuf s.cfg.inCap = true
  /-- OUT is in canonical form. -/
  outWf : Memory.wf s.outBuf = true
  /-- OUT has OUT_CAP bytes (R28, R163). -/
  outWithin : Memory.within s.outBuf s.cfg.outCap = true
  /-- While busy no byte of OUT is specified (R28, R195). -/
  busyOut : s.busy = true → s.outBuf = []
  /-- Outside the busy interval exactly OUT[0 .. OUT_LEN) is specified (R28). -/
  idleOut : s.busy = false → ∀ i, (Memory.read s.outBuf i).isSome = decide (i < s.outLen.toNat)
  /-- Outside the busy interval bits 31:8 of VER_OUT are 0 (R29). -/
  idleVer : s.busy = false → s.verOut.toNat < 256
  /-- After a failed command OUT_LEN and VER_OUT are 0 (R197). -/
  failed : statusFail s.status = true → s.outLen = 0 ∧ s.verOut = 0

/-- INPUT_WRITTEN with its value: IN[0 .. IN_LEN) is the byte sequence input, every byte of it written since
reset, and it lies inside the IN buffer (R236, R224). -/
def Ready (s : State) (input : List Byte) : Prop :=
  s.inLen.toNat = input.length ∧ input.length ≤ s.cfg.inCap ∧
  ∀ i, i < input.length → Memory.read s.inBuf i = input[i]?

/-- INPUT_WRITTEN (R236): an input that lies inside the IN buffer has been written. -/
def InputWritten (s : State) : Prop :=
  s.inLen.toNat ≤ s.cfg.inCap → ∀ i, i < s.inLen.toNat → (Memory.read s.inBuf i).isSome = true

/-- NO_RESET_IN_FLIGHT (R236): none of the moves that the port still serves before the completion step is `rst`. A `rst`
that comes after that step is allowed. -/
def NoResetInFlight (s : State) : Prop :=
  ∀ (k : Nat) (u : State), k < s.busyLeft → Sys2Proof.core.run k s = .next u → u.events.head? ≠ some .rst

/-- What no completion step changes (R62, R197): CMD, IN_LEN, IN, the configuration and the outside world. -/
def SameOutside (s t : State) : Prop :=
  t.cmd = s.cmd ∧ t.inLen = s.inLen ∧ t.inBuf = s.inBuf ∧ t.cfg = s.cfg ∧
  t.events = s.events ∧ t.responses = s.responses ∧ t.busyLeft = s.busyLeft ∧ t.draws = s.draws

/-- t is s after a completion step with `Ok(out, ver)` (R196): STATUS 0x2, OUT_LEN, OUT[0 .. OUT_LEN) and VER_OUT
hold the result, no other byte of OUT is specified, all else is as it was. -/
def DoneWith (s t : State) (out : List Byte) (ver : Byte) : Prop :=
  t.status = 0x00000002 ∧ t.outLen.toNat = out.length ∧ (∀ i, Memory.read t.outBuf i = out[i]?) ∧
  t.verOut = ver.setWidth 32 ∧ SameOutside s t

/-- t is s after a completion step with an error (R197): the given STATUS, OUT_LEN 0, VER_OUT 0, no byte of OUT
specified, all else as it was. -/
def FailedWith (s t : State) (status : Word) : Prop :=
  t.status = status ∧ t.outLen = 0 ∧ (∀ i, Memory.read t.outBuf i = none) ∧ t.verOut = 0 ∧ SameOutside s t

/-- The host has copied OUT[0 .. OUT_LEN) and OUT_LEN of t to IN and IN_LEN of u (43_encode_commands.md R166). -/
def CopiedOutToIn (t u : State) : Prop :=
  u.cfg = t.cfg ∧ u.inLen = t.outLen ∧
  ∀ i, i < t.outLen.toNat → Memory.read u.inBuf i = Memory.read t.outBuf i

/-- The STATUS st that the priority list of R193 gives a command word w, with row the row of its alphabet and input
its input bytes: the first error that applies, else success. OP is w mod 16, ALPH the next four bits. -/
def PriorityOutcome (w : Word) (inCap inLen : Nat) (row input : List Byte) (st : Word) : Prop :=
  if w.toNat / 2 ^ 16 ≠ 0 ∨ w.toNat % 16 = 0 ∨ w.toNat % 16 = 4 ∨ 8 ≤ w.toNat % 16 then st = 0x00000506
  else if 4 ≤ w.toNat / 16 % 16 then st = 0x00000106
  else if inCap < inLen then st = 0x00000606
  else if w.toNat % 16 < 4 then st = 0x00000002
  else if ∃ c ∈ input, c ∉ row then st = 0x00000206
  else ∃ d, fromBase58 row input = some d ∧
    (if w.toNat % 16 = 5 then st = 0x00000002
     else if d.length < w.toNat % 16 - 2 then st = 0x00000306
     else if (sha256 (sha256 (d.take (d.length - 4)))).take 4 ≠ d.drop (d.length - 4) then st = 0x00000406
     else st = 0x00000002)

/-- What is observed of a finished command (R235): STATUS, OUT_LEN, VER_OUT and OUT[0 .. OUT_LEN). -/
structure Observation where
  status : Word
  outLen : Word
  verOut : Word
  out : Option (List Byte)
  deriving DecidableEq, Repr

/-- The observation of a state (R235). -/
def State.observe (s : State) : Observation where
  status := s.status
  outLen := s.outLen
  verOut := s.verOut
  out := Memory.readRange s.outBuf 0 s.outLen.toNat

/-- A run is over when the outside world has no move left and no command is in flight (R235). -/
def State.finished (s : State) : Bool := s.events.isEmpty && !s.busy

end Sys2Proof.Machine
end

