-- ==== Sys2Proof/Certificates/Slice0/Obligations.lean ====
section
/-! DEFINITION. The statements for the provers, each from the numbered rules of spec/. They quantify over every
state and every configuration; none rests on a free value and none on the contents of a symbol table. -/

open Sys2Proof Sys2Proof.Machine

/-! ### Encoding and decoding (30_encoding.md) -/

/-- Decoding the encoding of any command gives it back, from the word and from its four byte lanes (R76, R77, R82;
20_memory.md R54). -/
def Obligations.DecodeOfEncodeIsIdentity : Prop :=
  ∀ i : Instr, decodeCmd (encode i) = .ok i ∧ decodeLanes (lanes (encode i)) = .ok i

/-- A word that decodes is the encoding of what it decodes to: no bit is dropped (R76, R82). -/
def Obligations.EncodeOfDecodeIsIdentity : Prop :=
  ∀ (w : Word) (i : Instr), decodeCmd w = .ok i → encode i = w

/-- A word selects a command iff its bits under the mask 0xFFFF000F are the command's match value (R78). -/
def Obligations.WordSelectsByMaskAndMatch : Prop :=
  ∀ w : Word,
    ((∃ a v, decodeCmd w = .ok (.enc a v)) ↔ w &&& 0xFFFF000F = 0x00000001) ∧
    ((∃ a v, decodeCmd w = .ok (.encc a v)) ↔ w &&& 0xFFFF000F = 0x00000002) ∧
    ((∃ a v, decodeCmd w = .ok (.encv a v)) ↔ w &&& 0xFFFF000F = 0x00000003) ∧
    ((∃ a v, decodeCmd w = .ok (.dec a v)) ↔ w &&& 0xFFFF000F = 0x00000005) ∧
    ((∃ a v, decodeCmd w = .ok (.decc a v)) ↔ w &&& 0xFFFF000F = 0x00000006) ∧
    ((∃ a v, decodeCmd w = .ok (.decv a v)) ↔ w &&& 0xFFFF000F = 0x00000007)

/-- The decoder refuses exactly the words with RSV non-zero or OP in 0x0, 0x4, 0x8..0xF, and from every other word it
reads op = w[3:0], alph = w[7:4], ver = w[15:8] (R82). -/
def Obligations.DecoderRefusesExactlyReservedWords : Prop :=
  ∀ w : Word,
    ((decodeCmd w).toOption = none ↔
      w.toNat / 2 ^ 16 ≠ 0 ∨ w.toNat % 16 = 0 ∨ w.toNat % 16 = 4 ∨ 8 ≤ w.toNat % 16) ∧
    ∀ i, decodeCmd w = .ok i →
      i.op.toNat = w.toNat % 16 ∧ i.alph.toNat = w.toNat / 16 % 16 ∧ i.ver.toNat = w.toNat / 256 % 256

/-- The words R86 writes out decode to the commands it writes beside them. -/
def Obligations.WrittenOutWordsDecode : Prop :=
  decodeCmd 0x00000001 = .ok (.enc 0 0) ∧ decodeCmd 0x00000022 = .ok (.encc 2 0) ∧
  decodeCmd 0x00008003 = .ok (.encv 0 0x80) ∧ decodeCmd 0x00000035 = .ok (.dec 3 0) ∧
  decodeCmd 0x00000016 = .ok (.decc 1 0) ∧ decodeCmd 0x00000007 = .ok (.decv 0 0) ∧
  decodeCmd 0x00000507 = .ok (.decv 0 5) ∧
  decodeCmd 0x00000091 = .ok (.enc 9 0) ∧ (decodeCmd 0x00000000).toOption = none

/-- A well-formed command line has a word, and the word decodes to the command it names, with the tag and the
version written in it, the version 0 where none is; the four names are the tags 0, 1, 2, 3 (R86, R95). -/
def Obligations.AssembledLineDecodesToItsCommand : Prop :=
  ∀ (m : Mnemonic) (a : AlphRef) (ver : Option Nat), (AsmLine.cmd m a ver).wf = true →
    ∃ w alph v, assemble (.cmd m a ver) = some w ∧ decodeCmd w = .ok (m.instr alph v) ∧
      v.toNat = ver.getD 0 ∧
      (∀ n, a = .raw n → alph.toNat = n) ∧ (∀ x, a = .name x → alph = x.tag) ∧
      (a = .name .bitcoin → alph = 0) ∧ (a = .name .monero → alph = 1) ∧
      (a = .name .flickr → alph = 2) ∧ (a = .name .ripple → alph = 3)

/-! ### The step, reset, acceptance, completion (60_exceptions.md, 70_reset_and_hazards.md) -/

/-- When the engine's turn has come and the accepted word decodes to i, the step is exec of i at that state, with
nothing around it; and the word placed by withFetchWord runs at the very next step (R196, R198). When that turn comes, and
how a word is placed, are the model's choices (log entries 4 and 10). -/
def Obligations.StepRunsTheDecodedCommand : Prop :=
  (∀ (s : State) (i : Instr), s.engineTurn = true → decodeCmd s.cmd = .ok i → step s = exec i s) ∧
  (∀ (s : State) (w : Nat) (i : Instr), decodeTableWord 32 w = some i →
    step (s.withFetchWord 32 w) = exec i (s.withFetchWord 32 w))

/-- A word that selects no command completes with IllegalCommand, whatever ALPH, VER, IN_LEN and IN hold (R191,
R83, R197). -/
def Obligations.IllegalWordCompletesWithIllegalCommand : Prop :=
  ∀ s : State, s.engineTurn = true → (decodeCmd s.cmd).toOption = none →
    ∃ t, step s = .next t ∧ FailedWith s t 0x00000506

/-- The all-zero word is illegal: accepting it ends in IllegalCommand (R84). -/
def Obligations.AllZeroWordStartsNoConversion : Prop :=
  (decodeCmd 0).toOption = none ∧
  ∀ s : State, s.engineTurn = true → s.cmd = 0 → ∃ t, step s = .next t ∧ FailedWith s t 0x00000506

/-- Reset leaves every register 0, no byte of IN or OUT specified, and the configuration, with it the constant alphabet
tables, as it is, for every configuration of this hardware (10_state.md R37). -/
def Obligations.ResetLeavesTheStatedValues : Prop :=
  ∀ c : Config,
    (State.resetOf c).cmd = 0x00000000 ∧ (State.resetOf c).status = 0x00000000 ∧
    (State.resetOf c).inLen = 0x00000000 ∧ (State.resetOf c).outLen = 0x00000000 ∧
    (State.resetOf c).verOut = 0x00000000 ∧
    (∀ i, Memory.read (State.resetOf c).inBuf i = none ∧ Memory.read (State.resetOf c).outBuf i = none) ∧
    (State.resetOf c).cfg = c

/-- `rst` leaves the reset state whenever it comes: of an idle block, after reset or after a completed command (R215), and
during a command, which it abandons (R216). Every register becomes 0, no byte of OUT or IN is specified, the engine has no
step to take, and the configuration stays. That `rst` is one move on the list of moves, and comes during a command while
busy time is left, is the model's choice (log entries 2, 4 and 8). -/
def Obligations.ResetDuringCommandAbandonsIt : Prop :=
  ∀ (s : State) (rest : List Event), (s.busy = true → 0 < s.busyLeft) → s.events = .rst :: rest →
    ∃ t, step s = .next t ∧ t.status = 0x00000000 ∧ t.outLen = 0 ∧ t.verOut = 0 ∧
      (∀ i, Memory.read t.outBuf i = none ∧ Memory.read t.inBuf i = none) ∧
      t.engineTurn = false ∧ t.cmd = 0 ∧ t.inLen = 0 ∧ t.cfg = s.cfg ∧ t.events = rest

/-- The reset state of every configuration satisfies the invariant, State.reset among them, which is the one of the spec's
default configuration: IN_CAP 512 (R9), OUT_CAP 1024 (R10) and the rows of R100. That State.reset takes this configuration
is the model's choice (log entry 1). -/
def Obligations.ResetSatisfiesInvariant : Prop :=
  Inv State.reset ∧ (∀ c : Config, Inv (State.resetOf c)) ∧
  State.reset = State.resetOf defaultConfig ∧ State.reset.cfg.inCap = 512 ∧ State.reset.cfg.outCap = 1024 ∧
  State.reset.cfg.alphabets = defaultTable

/-- Every step keeps the invariant: STATUS stays one of its nine values, the buffers stay canonical and inside
their capacities, outside the busy interval exactly OUT[0 .. OUT_LEN) is specified and VER_OUT is a byte (10_state.md
R24, R27, R28, R29; R163, R197). -/
def Obligations.EveryStepKeepsInvariant : Prop :=
  ∀ s t : State, Inv s → step s = .next t → Inv t

/-- Acceptance (R195): a 4-byte write of CMD while idle is answered OK for every word; CMD and STATUS are written,
OUT_LEN, VER_OUT and all of OUT become unspecified, IN_LEN and IN stay. The same write while busy is answered ERROR
and does nothing. That an unspecified value is a draw of a free value is the model's form of it (log entry 5). -/
def Obligations.CmdWriteIsAcceptance : Prop :=
  ∀ (s : State) (w : Word),
    (s.busy = false → ∃ t, busAccess s (.memWrite 0x0000 4 w) = (.ok, t) ∧ t.cmd = w ∧ t.status = 0x00000001 ∧
      (∃ m n, t.outLen = Config.unspecifiedWord m ∧ t.verOut = Config.unspecifiedWord n) ∧
      (∀ i, Memory.read t.outBuf i = none) ∧
      t.inLen = s.inLen ∧ t.inBuf = s.inBuf ∧ t.cfg = s.cfg) ∧
    (s.busy = true → busAccess s (.memWrite 0x0000 4 w) = (.error, s))

/-- Whatever makes STATUS change while idle is an acceptance or a reset: without either, a step of an idle block
leaves STATUS, OUT_LEN, VER_OUT, OUT and CMD as they are (R196 "Enabled iff STATUS.BUSY = 1"; 10_state.md R38). -/
def Obligations.ResultsPersistUntilAcceptanceOrReset : Prop :=
  ∀ s t : State, s.busy = false → step s = .next t → s.events.head? ≠ some .rst →
    (∀ n w, s.events.head? ≠ some (.bus (.memWrite 0x0000 n w))) →
    t.status = s.status ∧ t.outLen = s.outLen ∧ t.verOut = s.verOut ∧ t.outBuf = s.outBuf ∧ t.cmd = s.cmd

/-- Every command completes (R233, R210): a busy block whose input is written and that is not reset reaches, within
its busy time, a state that still holds the accepted word and input, and the step from there ends the command with
DONE set and BUSY clear. The busy time, counted in moves of the outside world, is the model's form of it (log entry 4). -/
def Obligations.EveryBusyCommandCompletes : Prop :=
  ∀ s : State, s.busy = true → InputWritten s → NoResetInFlight s →
    ∃ (k : Nat) (u t : State), k ≤ s.busyLeft ∧ Sys2Proof.core.run k s = .next u ∧
      u.cmd = s.cmd ∧ u.inLen = s.inLen ∧ u.inBuf = s.inBuf ∧ u.cfg = s.cfg ∧ u.busy = true ∧
      step u = .next t ∧ statusDone t.status = true ∧ t.busy = false

/-! ### The bus (20_memory.md) -/

/-- A transaction that is answered ERROR changes no state (R52, R201). -/
def Obligations.ErroredTransactionChangesNothing : Prop :=
  ∀ (s : State) (t : Txn), (busAccess s t).1 = .error → (busAccess s t).2 = s

/-- The legal transactions and what each does (R53): the five kinds, and ERROR for every other transaction, where a
written value fits its size (R52). The write of CMD is acceptance, stated on its own. -/
def Obligations.LegalTransactionsAreExactlyThese : Prop :=
  (∀ (s : State), s.busy = false →
    busAccess s (.memRead 0x0000 4) = (.data s.cmd, s) ∧ busAccess s (.memRead 0x0004 4) = (.data s.status, s) ∧
    busAccess s (.memRead 0x0008 4) = (.data s.inLen, s) ∧ busAccess s (.memRead 0x000C 4) = (.data s.outLen, s) ∧
    busAccess s (.memRead 0x0010 4) = (.data s.verOut, s)) ∧
  (∀ (s : State) (v : Word), s.busy = false →
    busAccess s (.memWrite 0x0008 4 v) = (.ok, { s with inLen := v }) ∧
    busAccess s (.memWrite 0x0000 4 v) = (.ok, s.accept v)) ∧
  (∀ (s : State) (i : Nat) (b : Byte), i < s.cfg.inCap → Memory.read s.inBuf i = some b →
    busAccess s (.memRead (BitVec.ofNat 14 (0x1000 + i)) 1) = (.data (b.setWidth 32), s)) ∧
  (∀ (s : State) (i : Nat) (b : Byte), i < s.cfg.inCap → s.busy = false →
    busAccess s (.memWrite (BitVec.ofNat 14 (0x1000 + i)) 1 (b.setWidth 32)) =
      (.ok, { s with inBuf := Memory.write s.inBuf i b })) ∧
  (∀ (s : State) (i : Nat) (b : Byte), i < s.cfg.outCap → s.busy = false → Memory.read s.outBuf i = some b →
    busAccess s (.memRead (BitVec.ofNat 14 (0x2000 + i)) 1) = (.data (b.setWidth 32), s)) ∧
  (∀ (s : State) (a : Addr) (n : Nat), (busAccess s (.memRead a n)).1 ≠ .error ↔
    (n = 4 ∧ (a = 0x0000 ∨ a = 0x0004 ∨ a = 0x0008 ∨ a = 0x000C ∨ a = 0x0010)) ∨
    (n = 1 ∧ 0x1000 ≤ a.toNat ∧ a.toNat < 0x1000 + s.cfg.inCap) ∨
    (n = 1 ∧ 0x2000 ≤ a.toNat ∧ a.toNat < 0x2000 + s.cfg.outCap)) ∧
  (∀ (s : State) (a : Addr) (n : Nat) (v : Word), (n = 1 → v.toNat < 256) →
    ((busAccess s (.memWrite a n v)).1 ≠ .error ↔
      s.busy = false ∧ ((n = 4 ∧ (a = 0x0000 ∨ a = 0x0008)) ∨
        (n = 1 ∧ 0x1000 ≤ a.toNat ∧ a.toNat < 0x1000 + s.cfg.inCap))))

/-- While busy every write is answered ERROR and changes nothing, so the command in flight and its input cannot
change (R60). -/
def Obligations.WritesWhileBusyAreRefused : Prop :=
  ∀ (s : State) (a : Addr) (n : Nat) (v : Word), s.busy = true → busAccess s (.memWrite a n v) = (.error, s)

/-- Reads while busy (R61): STATUS reads 0x1, CMD, IN_LEN and written IN bytes read as stored, OUT_LEN, VER_OUT and
OUT bytes answer OK with an unspecified value, another draw at each read, and no read is answered ERROR that would not
be answered ERROR while idle. That an unspecified value is a draw of a free value, and each read another draw, is the
model's form of it (log entry 5). -/
def Obligations.ReadsWhileBusy : Prop :=
  ∀ s : State, Inv s → s.busy = true →
    (busAccess s (.memRead 0x0004 4)).1 = .data 0x00000001 ∧
    (busAccess s (.memRead 0x0000 4)).1 = .data s.cmd ∧
    (busAccess s (.memRead 0x0008 4)).1 = .data s.inLen ∧
    (∀ i b, i < s.cfg.inCap → Memory.read s.inBuf i = some b →
      (busAccess s (.memRead (BitVec.ofNat 14 (0x1000 + i)) 1)).1 = .data (b.setWidth 32)) ∧
    (busAccess s (.memRead 0x000C 4)).1 = .data (Config.unspecifiedWord s.draws) ∧
    (busAccess s (.memRead 0x0010 4)).1 = .data (Config.unspecifiedWord s.draws) ∧
    (∀ i, i < s.cfg.outCap → (busAccess s (.memRead (BitVec.ofNat 14 (0x2000 + i)) 1)).1 =
      .data ((Config.unspecifiedByte s.draws).setWidth 32)) ∧
    (busAccess s (.memRead 0x000C 4)).2.draws = s.draws + 1 ∧
    (busAccess s (.memRead 0x0010 4)).2.draws = s.draws + 1 ∧
    (∀ i, i < s.cfg.outCap →
      (busAccess s (.memRead (BitVec.ofNat 14 (0x2000 + i)) 1)).2.draws = s.draws + 1) ∧
    (∀ a n, (busAccess s (.memRead a n)).1 = .error ↔
      (busAccess { s with status := 0x00000000 } (.memRead a n)).1 = .error)

/-- No read has a side effect (R59): after any read every register and every byte of IN and OUT is as before. -/
def Obligations.ReadsHaveNoSideEffect : Prop :=
  ∀ (s : State) (a : Addr) (n : Nat),
    (busAccess s (.memRead a n)).2.cmd = s.cmd ∧ (busAccess s (.memRead a n)).2.status = s.status ∧
    (busAccess s (.memRead a n)).2.inLen = s.inLen ∧ (busAccess s (.memRead a n)).2.outLen = s.outLen ∧
    (busAccess s (.memRead a n)).2.verOut = s.verOut ∧ (busAccess s (.memRead a n)).2.inBuf = s.inBuf ∧
    (busAccess s (.memRead a n)).2.outBuf = s.outBuf

/-- A byte written to IN[i] while idle reads back, every other byte of IN reads as before, and nothing else of the
block changes (R53 item 4; 10_state.md R27, R38). -/
def Obligations.InByteWriteReadsBack : Prop :=
  ∀ (s : State) (i : Nat) (b : Byte), i < s.cfg.inCap → s.busy = false →
    ∃ t, busAccess s (.memWrite (BitVec.ofNat 14 (0x1000 + i)) 1 (b.setWidth 32)) = (.ok, t) ∧
      busAccess t (.memRead (BitVec.ofNat 14 (0x1000 + i)) 1) = (.data (b.setWidth 32), t) ∧
      (∀ j, j ≠ i → Memory.read t.inBuf j = Memory.read s.inBuf j) ∧
      t.cmd = s.cmd ∧ t.status = s.status ∧ t.inLen = s.inLen ∧ t.outLen = s.outLen ∧ t.verOut = s.verOut ∧
      t.outBuf = s.outBuf

/-- The host's LOAD (30_encoding.md R87): from an idle block whose IN buffer is large enough it takes one step per
byte and one for IN_LEN, every step answered OK, after which IN[0 .. IN_LEN) is the bytes loaded. The list of moves is the
model's (log entry 2). -/
def Obligations.LoadPlacesTheInput : Prop :=
  ∀ (s : State) (bs : List Byte) (rest : List Event), s.busy = false → bs.length ≤ s.cfg.inCap →
    s.events = hostLoad bs ++ rest →
    ∃ t, Sys2Proof.core.run (bs.length + 1) s = .next t ∧ t.events = rest ∧ Ready t bs ∧
      t.responses = s.responses ++ List.replicate (bs.length + 1) .ok ∧
      t.cmd = s.cmd ∧ t.status = s.status ∧ t.outLen = s.outLen ∧ t.verOut = s.verOut ∧ t.outBuf = s.outBuf

/-- The host's WAIT (30_encoding.md R87) reads STATUS at every step and stays the next move until the value read has
DONE set, and it changes no register and no byte of IN or OUT. That WAIT is one move of its own is the model's choice (log entry 2). -/
def Obligations.WaitPollsUntilDone : Prop :=
  ∀ (s : State) (rest : List Event), s.engineTurn = false → s.events = .waitDone :: rest →
    ∃ t, step s = .next t ∧ t.responses = s.responses ++ [.data s.status] ∧
      t.events = (if statusDone s.status then rest else .waitDone :: rest) ∧
      t.cmd = s.cmd ∧ t.status = s.status ∧ t.inLen = s.inLen ∧ t.outLen = s.outLen ∧ t.verOut = s.verOut ∧
      t.inBuf = s.inBuf ∧ t.outBuf = s.outBuf

/-- The host's DUMP (30_encoding.md R87) after a completed command: it reads OUT_LEN and then exactly the OUT_LEN result
bytes, first byte first, and every register, every byte of IN and OUT, the configuration and the draw counter stay as they
are. That DUMP is one move that becomes these reads is the model's choice (log
entries 2 and 9). -/
def Obligations.DumpReadsTheResult : Prop :=
  ∀ (s : State) (rest : List Event), Inv s → s.busy = false → s.events = .dump :: rest →
    ∃ (t : State) (out : List Byte), Sys2Proof.core.run (s.outLen.toNat + 1) s = .next t ∧ t.events = rest ∧
      out.length = s.outLen.toNat ∧ (∀ i, i < out.length → Memory.read s.outBuf i = out[i]?) ∧
      t.responses = s.responses ++ .data s.outLen :: out.map (fun b => .data (b.setWidth 32)) ∧
      t.cmd = s.cmd ∧ t.status = s.status ∧ t.inLen = s.inLen ∧ t.outLen = s.outLen ∧ t.verOut = s.verOut ∧
      t.inBuf = s.inBuf ∧ t.outBuf = s.outBuf ∧ t.cfg = s.cfg ∧ t.draws = s.draws

/-! ### The commands complete (43_encode_commands.md, 44_decode_commands.md) -/

/-- ENC completes with to_base58(input, a), VER_OUT 0 (R160). -/
def Obligations.EncCompletes : Prop :=
  ∀ (s : State) (input : List Byte) (a : Alphabet) (ver : Byte), Ready s input →
    ∃ t, exec (.enc a.tag ver) s = .next t ∧ DoneWith s t (toBase58 (s.cfg.alphabets.row a) input) 0

/-- ENCC completes with to_base58(input ++ tag, a), the tag that of the input alone, VER_OUT 0 (R161). -/
def Obligations.EnccCompletes : Prop :=
  ∀ (s : State) (input : List Byte) (a : Alphabet) (ver : Byte), Ready s input →
    ∃ t, exec (.encc a.tag ver) s = .next t ∧
      DoneWith s t (toBase58 (s.cfg.alphabets.row a) (input ++ (sha256 (sha256 input)).take 4)) 0

/-- ENCV completes with to_base58([ver] ++ input ++ tag, a), the tag that of [ver] ++ input, VER_OUT 0 (R162). -/
def Obligations.EncvCompletes : Prop :=
  ∀ (s : State) (input : List Byte) (a : Alphabet) (ver : Byte), Ready s input →
    ∃ t, exec (.encv a.tag ver) s = .next t ∧
      DoneWith s t
        (toBase58 (s.cfg.alphabets.row a) (ver :: input ++ (sha256 (sha256 (ver :: input))).take 4)) 0

/-- DEC completes with the decoded bytes when every input byte is a symbol, and then there are some (R175, R145). -/
def Obligations.DecCompletes : Prop :=
  ∀ (s : State) (input : List Byte) (a : Alphabet) (ver : Byte), Ready s input →
    (∀ c ∈ input, c ∈ s.cfg.alphabets.row a) →
    ∃ d t, fromBase58 (s.cfg.alphabets.row a) input = some d ∧ exec (.dec a.tag ver) s = .next t ∧
      DoneWith s t d 0

/-- DECC completes with the decoded bytes less their last four, when those are the tag of the rest (R176, R179). -/
def Obligations.DeccCompletes : Prop :=
  ∀ (s : State) (input payload tag : List Byte) (a : Alphabet) (ver : Byte), Ready s input →
    fromBase58 (s.cfg.alphabets.row a) input = some (payload ++ tag) → tag.length = 4 →
    tag = (sha256 (sha256 payload)).take 4 →
    ∃ t, exec (.decc a.tag ver) s = .next t ∧ DoneWith s t payload 0

/-- DECV completes with the payload in OUT and the version in VER_OUT, when the last four decoded bytes are the tag
of version and payload (R177, R179; 10_state.md R29). -/
def Obligations.DecvCompletes : Prop :=
  ∀ (s : State) (input payload tag : List Byte) (version : Byte) (a : Alphabet) (hint : Byte), Ready s input →
    fromBase58 (s.cfg.alphabets.row a) input = some (version :: payload ++ tag) → tag.length = 4 →
    tag = (sha256 (sha256 (version :: payload))).take 4 →
    ∃ t, exec (.decv a.tag hint) s = .next t ∧ DoneWith s t payload version

/-! ### Command errors (60_exceptions.md) -/

/-- A tag of 4..15 completes any of the six commands with InvalidAlphabet, whatever IN_LEN and IN hold: no input byte
is read and no default is taken (40_alphabet_registry.md R96). -/
def Obligations.BadTagCompletesWithInvalidAlphabet : Prop :=
  ∀ (s : State) (i : Instr), 4 ≤ i.alph.toNat → ∃ t, exec i s = .next t ∧ FailedWith s t 0x00000106

/-- With a legal tag and IN_LEN > IN_CAP any of the six commands completes with LengthError, whatever IN holds
(R192). -/
def Obligations.LongInputCompletesWithLengthError : Prop :=
  ∀ (s : State) (i : Instr), i.alph.toNat ≤ 3 → s.cfg.inCap < s.inLen.toNat →
    ∃ t, exec i s = .next t ∧ FailedWith s t 0x00000606

/-- A byte that is no symbol, wherever it stands, completes each decode command with InvalidCharacter
(42_base_converter.md R145). -/
def Obligations.BadByteCompletesWithInvalidCharacter : Prop :=
  ∀ (s : State) (input : List Byte) (a : Alphabet) (ver c : Byte), Ready s input → c ∈ input →
    c ∉ s.cfg.alphabets.row a →
    (∃ t, exec (.dec a.tag ver) s = .next t ∧ FailedWith s t 0x00000206) ∧
    (∃ t, exec (.decc a.tag ver) s = .next t ∧ FailedWith s t 0x00000206) ∧
    (∃ t, exec (.decv a.tag ver) s = .next t ∧ FailedWith s t 0x00000206)

/-- TooShort thresholds (44_decode_commands.md R178): on the decoded byte count, 4 for DECC, 5 for DECV, none for
DEC. -/
def Obligations.ShortDecodingCompletesWithTooShort : Prop :=
  ∀ (s : State) (input d : List Byte) (a : Alphabet) (ver : Byte), Ready s input →
    fromBase58 (s.cfg.alphabets.row a) input = some d →
    (d.length < 4 → ∃ t, exec (.decc a.tag ver) s = .next t ∧ FailedWith s t 0x00000306) ∧
    (d.length < 5 → ∃ t, exec (.decv a.tag ver) s = .next t ∧ FailedWith s t 0x00000306) ∧
    (4 ≤ d.length → ∀ t, exec (.decc a.tag ver) s = .next t → t.status ≠ 0x00000306) ∧
    (5 ≤ d.length → ∀ t, exec (.decv a.tag ver) s = .next t → t.status ≠ 0x00000306) ∧
    (∃ t, exec (.dec a.tag ver) s = .next t ∧ DoneWith s t d 0)

/-- Tag comparison (44_decode_commands.md R179): if any of the four last decoded bytes differs from the recomputed
tag, DECC and DECV complete with ChecksumMismatch; if none does, they succeed. -/
def Obligations.WrongTagCompletesWithChecksumMismatch : Prop :=
  ∀ (s : State) (input payload tag : List Byte) (a : Alphabet) (ver : Byte), Ready s input → tag.length = 4 →
    (fromBase58 (s.cfg.alphabets.row a) input = some (payload ++ tag) →
      ∃ t, exec (.decc a.tag ver) s = .next t ∧
        ((∃ k, k < 4 ∧ tag[k]? ≠ (sha256 (sha256 payload))[k]?) → FailedWith s t 0x00000406) ∧
        ((∀ k, k < 4 → tag[k]? = (sha256 (sha256 payload))[k]?) → DoneWith s t payload 0)) ∧
    (∀ version, fromBase58 (s.cfg.alphabets.row a) input = some (version :: payload ++ tag) →
      ∃ t, exec (.decv a.tag ver) s = .next t ∧
        ((∃ k, k < 4 ∧ tag[k]? ≠ (sha256 (sha256 (version :: payload)))[k]?) → FailedWith s t 0x00000406) ∧
        ((∀ k, k < 4 → tag[k]? = (sha256 (sha256 (version :: payload)))[k]?) → DoneWith s t payload version))

/-- Priority (R193): when several error conditions hold, the first of IllegalCommand, InvalidAlphabet, LengthError,
InvalidCharacter, TooShort, ChecksumMismatch is the one reported, and with none of them the command succeeds. -/
def Obligations.FirstErrorInPriorityIsReported : Prop :=
  ∀ (s : State) (row input : List Byte), s.engineTurn = true →
    (∀ a : Alphabet, a.tag.toNat = s.cmd.toNat / 16 % 16 → row = s.cfg.alphabets.row a) →
    (s.inLen.toNat ≤ s.cfg.inCap → Ready s input) →
    ∃ t, step s = .next t ∧ PriorityOutcome s.cmd s.cfg.inCap s.inLen.toNat row input t.status

/-- A byte of IN never written since reset reads as an unspecified value, and a command whose input covers it is refused
by name: the model gives the launch no result (10_state.md R39). The free value and the place of the refusal, at the
completion step, are the model's (log entries 5 and 6). -/
def Obligations.UnwrittenInputIsRefused : Prop :=
  ∀ (s : State) (k : Nat), Memory.read s.inBuf k = none → k < s.cfg.inCap →
    busAccess s (.memRead (BitVec.ofNat 14 (0x1000 + k)) 1) =
      (.data ((Config.unspecifiedByte s.draws).setWidth 32), { s with draws := s.draws + 1 }) ∧
    ∀ i : Instr, i.alph.toNat ≤ 3 → s.inLen.toNat ≤ s.cfg.inCap → k < s.inLen.toNat →
      exec i s = .refused .unwrittenInput

/-- Which command can end how (R202): for each command exactly the listed values of STATUS occur. -/
def Obligations.OutcomesOfEachCommand : Prop :=
  ∀ st : Word,
    ((∃ a v s t, exec (.enc a v) s = .next t ∧ t.status = st) ↔ st ∈ [0x00000002, 0x00000106, 0x00000606]) ∧
    ((∃ a v s t, exec (.encc a v) s = .next t ∧ t.status = st) ↔ st ∈ [0x00000002, 0x00000106, 0x00000606]) ∧
    ((∃ a v s t, exec (.encv a v) s = .next t ∧ t.status = st) ↔ st ∈ [0x00000002, 0x00000106, 0x00000606]) ∧
    ((∃ a v s t, exec (.dec a v) s = .next t ∧ t.status = st) ↔
      st ∈ [0x00000002, 0x00000106, 0x00000206, 0x00000606]) ∧
    ((∃ a v s t, exec (.decc a v) s = .next t ∧ t.status = st) ↔
      st ∈ [0x00000002, 0x00000106, 0x00000206, 0x00000306, 0x00000406, 0x00000606]) ∧
    ((∃ a v s t, exec (.decv a v) s = .next t ∧ t.status = st) ↔
      st ∈ [0x00000002, 0x00000106, 0x00000206, 0x00000306, 0x00000406, 0x00000606]) ∧
    ((∃ s t, s.engineTurn = true ∧ (decodeCmd s.cmd).toOption = none ∧ step s = .next t ∧ t.status = st) ↔
      st = 0x00000506)

/-- Errors are precise (R199): a failed command has no effect but that of R197, STATUS 0x6 + code << 8 included, and two
failed commands leave the same state apart from the ERR code, bits 11:8 of STATUS, whatever point their evaluation reached.
The same holds of a word that selects no command beside any failed command. -/
def Obligations.FailedCommandsDifferOnlyInStatus : Prop :=
  (∀ (s t u : State) (i j : Instr), exec i s = .next t → exec j s = .next u →
    statusFail t.status = true → statusFail u.status = true →
    FailedWith s t (0x00000006 + (statusErr t.status).setWidth 32 <<< 8) ∧
    FailedWith s u (0x00000006 + (statusErr u.status).setWidth 32 <<< 8) ∧
    t.status &&& 0xFFFFF0FF = u.status &&& 0xFFFFF0FF ∧ t = { u with status := t.status }) ∧
  (∀ (s t u : State) (j : Instr), s.engineTurn = true → (decodeCmd s.cmd).toOption = none → step s = .next t →
    exec j s = .next u → statusFail u.status = true →
    FailedWith s t 0x00000506 ∧ t.status &&& 0xFFFFF0FF = u.status &&& 0xFFFFF0FF ∧
    t = { u with status := t.status })

/-! ### Frames and purity -/

/-- The frame of all six commands (20_memory.md R62; 60_exceptions.md R197): CMD, IN_LEN, every byte of IN, the configuration and
the outside world are unchanged; STATUS becomes a completed one; no byte of OUT at or beyond OUT_LEN is specified. -/
def Obligations.CommandsChangeOnlyTheirResult : Prop :=
  ∀ (i : Instr) (s t : State), exec i s = .next t →
    SameOutside s t ∧ (∀ k, Memory.read t.inBuf k = Memory.read s.inBuf k) ∧
    (∀ k, t.outLen.toNat ≤ k → Memory.read t.outBuf k = none) ∧
    t.busy = false ∧ statusDone t.status = true ∧ t.verOut.toNat < 256

/-- Purity (10_state.md R35, R33): what is observed of a command depends on nothing but the command, the configuration,
IN_LEN and the input bytes; not on STATUS, OUT_LEN, VER_OUT, OUT or any earlier command. -/
def Obligations.ResultDependsOnlyOnTheInput : Prop :=
  ∀ (i : Instr) (s s' : State), s.cfg = s'.cfg → s.inLen = s'.inLen →
    (s.inLen.toNat ≤ s.cfg.inCap → ∀ k, k < s.inLen.toNat → Memory.read s.inBuf k = Memory.read s'.inBuf k) →
    (∃ t t', exec i s = .next t ∧ exec i s' = .next t' ∧ t.observe = t'.observe) ∨
    (exec i s = .refused .unwrittenInput ∧ exec i s' = .refused .unwrittenInput)

/-- VER is ignored by every command but ENCV (30_encoding.md R83; 44_decode_commands.md R182): two words that differ in VER only,
accepted in the same state, end alike. -/
def Obligations.VersionFieldIsIgnoredButByEncv : Prop :=
  ∀ (s t : State) (w w' : Word), s.engineTurn = true → s.cmd = w → w.toNat % 16 ≠ 3 →
    w'.toNat % 256 = w.toNat % 256 → w'.toNat / 2 ^ 16 = w.toNat / 2 ^ 16 →
    step s = .next t → step { s with cmd := w' } = .next { t with cmd := w' }

/-! ### The converter (42_base_converter.md) -/

/-- Round trip (R152): decoding the encoding of any byte sequence gives it back, leading zeros and the empty sequence
included, for every legal alphabet row. -/
def Obligations.DecodingAnEncodingGivesItBack : Prop :=
  ∀ row : List Byte, rowOk row = true → ∀ b : List Byte, fromBase58 row (toBase58 row b) = some b

/-- Converse (R153): every text of the alphabet decodes, and encoding what it decodes to gives the text back. -/
def Obligations.EncodingADecodingGivesItBack : Prop :=
  ∀ row : List Byte, rowOk row = true → ∀ t : List Byte, (∀ c ∈ t, c ∈ row) →
    ∃ b, fromBase58 row t = some b ∧ toBase58 row b = t

/-- Output length bound of the encode direction (R143). -/
def Obligations.EncodedLengthIsBounded : Prop :=
  ∀ row b : List Byte, (toBase58 row b).length ≤ b.length * 138 / 100 + 1

/-- Output length bound of the decode direction (R149), reached by a text of zero-digit symbols; so no decode command
has more output bytes than its input has, or than IN_CAP, which is at most OUT_CAP. -/
def Obligations.DecodedLengthIsBounded : Prop :=
  ∀ row : List Byte, rowOk row = true →
    (∀ t b : List Byte, fromBase58 row t = some b → b.length ≤ t.length) ∧
    (∀ n, ∃ b, fromBase58 row (List.replicate n (zeroSymbol row)) = some b ∧ b.length = n) ∧
    (∀ (i : Instr) (s t : State), 5 ≤ i.op.toNat → exec i s = .next t →
      t.outLen.toNat ≤ s.inLen.toNat ∧ t.outLen.toNat ≤ s.cfg.inCap ∧ s.cfg.inCap ≤ s.cfg.outCap)

/-- Output fits (43_encode_commands.md R163): no command has more than OUT_MIN(IN_CAP) output bytes, which is at most
OUT_CAP. -/
def Obligations.ResultsFitTheOutBuffer : Prop :=
  ∀ (i : Instr) (s t : State), exec i s = .next t →
    t.outLen.toNat ≤ (s.cfg.inCap + 5) * 138 / 100 + 1 ∧ (s.cfg.inCap + 5) * 138 / 100 + 1 ≤ s.cfg.outCap

/-- The leading-zero run and the value do not interact (R142), and the value part never begins with the zero-digit
symbol. -/
def Obligations.LeadingZerosPassThrough : Prop :=
  ∀ row : List Byte, rowOk row = true → ∀ (z : Nat) (b : List Byte), b.head? ≠ some 0x00 →
    toBase58 row (List.replicate z 0x00 ++ b) = List.replicate z (zeroSymbol row) ++ toBase58 row b ∧
    (toBase58 row b).head? ≠ some (zeroSymbol row)

/-- to_base58 (R136 to R139) against Mathlib's digits: the leading zeros, then the base-58 digits, most significant
first, of the bytes as a big-endian number. -/
def Obligations.EncodingIsTheBase58Expansion : Prop :=
  ∀ row b : List Byte,
    toBase58 row b =
      List.replicate (b.takeWhile (· == 0x00)).length (row.getD 0 0x00) ++
      (Nat.digits 58 (Nat.ofDigits 256 (b.reverse.map BitVec.toNat))).reverse.map (fun d => row.getD d 0x00)

/-- from_base58 (R146 to R148): the decoded bytes have the text's value as a big-endian number and one leading zero byte
for each leading zero-digit symbol, which determines them. -/
def Obligations.DecodingHasTheValueOfTheText : Prop :=
  ∀ row : List Byte, rowOk row = true → ∀ t b : List Byte, fromBase58 row t = some b →
    Nat.ofDigits 256 (b.reverse.map BitVec.toNat) = Nat.ofDigits 58 (t.reverse.map row.idxOf) ∧
    (b.takeWhile (· == 0x00)).length = (t.takeWhile (· == row.getD 0 0x00)).length

/-- The encode datapath computes the digits of the value (R150). -/
def Obligations.EncodeDatapathComputesTheDigits : Prop :=
  ∀ b : List Byte, (encodeArray b).reverse = digits58Be (beNat b)

/-- The decode datapath computes the minimal bytes of the value, without a stripping step, because the first folded
digit is not zero (R151). -/
def Obligations.DecodeDatapathComputesTheBytes : Prop :=
  ∀ ds : List Nat, (∀ d ∈ ds, d < 58) → ds.head? ≠ some 0 →
    (decodeArray ds).reverse.map (BitVec.ofNat 8) = beBytesMin (foldDigits ds) ∧ ∀ x ∈ decodeArray ds, x < 256

/-- The datapaths' carry never exceeds 14847, so it fits 14 bits, and their arrays hold digits and bytes (R150, R151,
R154). -/
def Obligations.DatapathCarryFitsFourteenBits : Prop :=
  (∀ (arr : List Nat) (x : Byte), (∀ d ∈ arr, d < 58) →
    (∀ c ∈ passCarries 256 58 arr x.toNat, c ≤ 14847) ∧ ∀ d ∈ mulAddPass 256 58 arr x.toNat, d < 58) ∧
  (∀ (arr : List Nat) (d : Nat), (∀ x ∈ arr, x < 256) → d < 58 →
    (∀ c ∈ passCarries 58 256 arr d, c ≤ 14847) ∧ ∀ x ∈ mulAddPass 58 256 arr d, x < 256)

/-! ### The checksum unit (41_checksum_unit.md) -/

/-- Padding (R119, R120, R121): the message, 0x80, the least number of zero bytes that makes the length a multiple of
64, the bit length in 8 bytes; the block count; and the fixed block of the second pass. -/
def Obligations.PaddedMessageIsWholeBlocks : Prop :=
  (∀ m : List Byte, ∃ k, k < 64 ∧
    shaPad m = m ++ [0x80] ++ List.replicate k 0x00 ++ beBytes 8 (8 * m.length) ∧
    (m.length + 1 + k + 8) % 64 = 0 ∧ (shaPad m).length = 64 * ((m.length + 8) / 64 + 1)) ∧
  (∀ h1 : List Byte, h1.length = 32 →
    shaBlocks (shaBlockCount h1.length) (shaPad h1) =
      [h1 ++ [0x80] ++ List.replicate 23 0x00 ++ [0x00, 0x00, 0x00, 0x00, 0x00, 0x00, 0x01, 0x00]])

/-- The message schedule (R125): the sixteen words of the block, big-endian, then the recurrence. -/
def Obligations.ScheduleFollowsTheRecurrence : Prop :=
  ∀ block : List Byte, block.length = 64 →
    (shaSchedule block).length = 64 ∧
    (∀ t, t < 16 → (shaSchedule block)[t]? =
      some (wordOf (block.getD (4 * t) 0) (block.getD (4 * t + 1) 0) (block.getD (4 * t + 2) 0)
        (block.getD (4 * t + 3) 0))) ∧
    (∀ t, 16 ≤ t → t < 64 → (shaSchedule block)[t]? =
      some (shaSsig1 ((shaSchedule block).getD (t - 2) 0) + (shaSchedule block).getD (t - 7) 0 +
        shaSsig0 ((shaSchedule block).getD (t - 15) 0) + (shaSchedule block).getD (t - 16) 0))

/-! ### The facade's laws (43_encode_commands.md, 44_decode_commands.md) -/

/-- A versioned encode of payload p and version v produces the text of a checksummed encode of [v] ++ p (R165). -/
def Obligations.VersionedEncodeIsChecksummedEncode : Prop :=
  ∀ (s s' : State) (p : List Byte) (v ignored : Byte) (a : Alphabet), s.cfg = s'.cfg → Ready s p → Ready s' (v :: p) →
    ∃ t t', exec (.encv a.tag v) s = .next t ∧ exec (.encc a.tag ignored) s' = .next t' ∧ t.observe = t'.observe

/-- DECC on a versioned text keeps the version byte in the payload; DECV on a checksummed text takes the first payload
byte for the version, and fails TooShort on the empty payload (R183). -/
def Obligations.ChecksummedAndVersionedTextsCross : Prop :=
  ∀ (s : State) (a : Alphabet) (x : Byte),
    (∀ (v : Byte) (p : List Byte), Ready s (toBase58 (s.cfg.alphabets.row a) (v :: p ++ checksum p (some v))) →
      ∃ t, exec (.decc a.tag x) s = .next t ∧ DoneWith s t (v :: p) 0) ∧
    (∀ (v : Byte) (p : List Byte), Ready s (toBase58 (s.cfg.alphabets.row a) (v :: p ++ checksum (v :: p) none)) →
      ∃ t, exec (.decv a.tag x) s = .next t ∧ DoneWith s t p v) ∧
    (Ready s (toBase58 (s.cfg.alphabets.row a) (checksum [] none)) →
      ∃ t, exec (.decv a.tag x) s = .next t ∧ FailedWith s t 0x00000306)

/-- What success guarantees (R184): the decoded bytes are the output followed by the tag that the output has. -/
def Obligations.SuccessMeansMatchingTag : Prop :=
  ∀ (s t : State) (input : List Byte) (a : Alphabet) (ver : Byte), Ready s input → t.status = 0x00000002 →
    (exec (.decc a.tag ver) s = .next t →
      ∃ out, fromBase58 (s.cfg.alphabets.row a) input = some (out ++ checksum out none) ∧ DoneWith s t out 0) ∧
    (exec (.decv a.tag ver) s = .next t →
      ∃ v out, fromBase58 (s.cfg.alphabets.row a) input = some (v :: out ++ checksum out (some v)) ∧
        DoneWith s t out v)

/-- Round trips of the machine (43_encode_commands.md R166): run an encode command on b, copy OUT and OUT_LEN to IN and IN_LEN,
run the matching decode command with the same ALPH: it succeeds with OUT = b, and VER_OUT = version for DECV; and the
copy fits when b is short enough. -/
def Obligations.MachineRoundTrips : Prop :=
  ∀ (s t u : State) (b : List Byte) (a : Alphabet) (v x y : Byte), Ready s b → CopiedOutToIn t u →
    (exec (.enc a.tag x) s = .next t ∨ exec (.encc a.tag x) s = .next t ∨ exec (.encv a.tag v) s = .next t →
      b.length + 5 ≤ (s.cfg.inCap - 1) * 100 / 138 → t.outLen.toNat ≤ s.cfg.inCap) ∧
    (exec (.enc a.tag x) s = .next t → t.outLen.toNat ≤ s.cfg.inCap →
      ∃ r, exec (.dec a.tag y) u = .next r ∧ DoneWith u r b 0) ∧
    (exec (.encc a.tag x) s = .next t → t.outLen.toNat ≤ s.cfg.inCap →
      ∃ r, exec (.decc a.tag y) u = .next r ∧ DoneWith u r b 0) ∧
    (exec (.encv a.tag v) s = .next t → t.outLen.toNat ≤ s.cfg.inCap →
      ∃ r, exec (.decv a.tag y) u = .next r ∧ DoneWith u r b v)
end

