-- ==== Sys2Proof/Laws/Memory.lean ====
section
/-! SUPPORT. The laws of the byte buffers: read after write, the canonical form, and what a range read gives. -/

namespace Sys2Proof.Machine

@[simp] theorem Memory.read_nil (i : Nat) : Memory.read [] i = none := rfl

@[simp] theorem Memory.read_write_same (m : Memory) (i : Nat) (b : Byte) :
    Memory.read (Memory.write m i b) i = some b := by
  induction m with
  | nil => simp [Memory.write, Memory.read]
  | cons c m ih =>
    obtain ⟨k, x⟩ := c
    simp only [Memory.write]
    split
    · simp [Memory.read]
    · split
      · simp [Memory.read]
      · simp [Memory.read, ih, show k ≠ i by omega]

theorem Memory.read_write_other (m : Memory) {i j : Nat} (b : Byte) (h : j ≠ i) :
    Memory.read (Memory.write m i b) j = Memory.read m j := by
  induction m with
  | nil => simp [Memory.write, Memory.read, h.symm]
  | cons c m ih =>
    obtain ⟨k, x⟩ := c
    simp only [Memory.write]
    split
    · simp [Memory.read, h.symm]
    · split
      · subst_vars; simp [Memory.read, h.symm]
      · simp [Memory.read, ih]

theorem Memory.wf_cons_iff (k : Nat) (b : Byte) (m : Memory) :
    Memory.wf ((k, b) :: m) = true ↔ (∀ c, m.head? = some c → k < c.1) ∧ Memory.wf m = true := by
  cases m with
  | nil => simp [Memory.wf]
  | cons c m => simp [Memory.wf]

/-- A write keeps the canonical form. -/
theorem Memory.wf_write (m : Memory) (i : Nat) (b : Byte) (h : Memory.wf m = true) :
    Memory.wf (Memory.write m i b) = true := by
  have head : ∀ (m : Memory) c, (Memory.write m i b).head? = some c → c.1 = i ∨ m.head? = some c := by
    intro m c
    cases m with
    | nil => simp [Memory.write]; rintro rfl; simp
    | cons c' m =>
      obtain ⟨k, x⟩ := c'
      simp only [Memory.write]
      split
      · simp; rintro rfl; simp
      · split <;> simp <;> rintro rfl <;> simp
  induction m with
  | nil => simp [Memory.write, Memory.wf]
  | cons c m ih =>
    obtain ⟨k, x⟩ := c
    have hm := (Memory.wf_cons_iff k x m).1 h
    simp only [Memory.write]
    split
    · rw [Memory.wf_cons_iff]; exact ⟨by simp; omega, h⟩
    · split
      · subst_vars; rw [Memory.wf_cons_iff]; exact hm
      · rw [Memory.wf_cons_iff]
        refine ⟨fun c' hc' => ?_, ih hm.2⟩
        rcases head m c' hc' with h1 | h1
        · omega
        · exact hm.1 c' h1

/-- A buffer built from bytes is in canonical form. -/
theorem Memory.wf_ofBytes (start : Nat) (bs : List Byte) : Memory.wf (Memory.ofBytes start bs) = true := by
  induction bs generalizing start with
  | nil => rfl
  | cons b bs ih =>
    simp only [Memory.ofBytes]
    rw [Memory.wf_cons_iff]
    refine ⟨?_, ih _⟩
    cases bs <;> simp [Memory.ofBytes]

/-- The buffers of every reset state are in canonical form (R37). -/
theorem Memory.wf_resetOf (c : Config) :
    Memory.wf (State.resetOf c).inBuf = true ∧ Memory.wf (State.resetOf c).outBuf = true := ⟨rfl, rfl⟩

theorem Memory.within_write (m : Memory) {i cap : Nat} (b : Byte) (h : Memory.within m cap = true) (hi : i < cap) :
    Memory.within (Memory.write m i b) cap = true := by
  induction m with
  | nil => simp [Memory.write, Memory.within, hi]
  | cons c m ih =>
    obtain ⟨k, x⟩ := c
    simp only [Memory.within, List.all_cons, Bool.and_eq_true, decide_eq_true_eq] at h ih ⊢
    simp only [Memory.write]
    split
    · simp [hi, h.1, h.2]
    · split
      · simp [hi, h.2]
      · simp [h.1, ih h.2]

theorem Memory.within_ofBytes (start cap : Nat) (bs : List Byte) (h : start + bs.length ≤ cap) :
    Memory.within (Memory.ofBytes start bs) cap = true := by
  induction bs generalizing start with
  | nil => rfl
  | cons b bs ih =>
    simp only [List.length_cons] at h
    simp only [Memory.ofBytes, Memory.within, List.all_cons, Bool.and_eq_true, decide_eq_true_eq]
    exact ⟨by omega, ih (start + 1) (by omega)⟩

/-- A byte that reads as something lies below a capacity the buffer is within. -/
theorem Memory.read_lt_of_within {m : Memory} {cap i : Nat} {b : Byte} (h : Memory.within m cap = true)
    (hr : Memory.read m i = some b) : i < cap := by
  induction m with
  | nil => simp at hr
  | cons c m ih =>
    obtain ⟨k, x⟩ := c
    simp only [Memory.within, List.all_cons, Bool.and_eq_true, decide_eq_true_eq] at h ih
    simp only [Memory.read] at hr
    split at hr
    · omega
    · exact ih h.2 hr

/-- What a buffer built from bytes reads as. -/
theorem Memory.read_ofBytes (start : Nat) (bs : List Byte) (i : Nat) :
    Memory.read (Memory.ofBytes start bs) i = if i < start then none else bs[i - start]? := by
  induction bs generalizing start with
  | nil => simp [Memory.ofBytes]
  | cons b bs ih =>
    simp only [Memory.ofBytes, Memory.read, ih]
    by_cases h : start = i
    · subst h; simp
    · rw [if_neg h]
      by_cases h2 : i < start
      · rw [if_pos (by omega), if_pos h2]
      · rw [if_neg (by omega), if_neg h2, show i - start = (i - (start + 1)) + 1 by omega]
        rfl

@[simp] theorem Memory.read_ofBytes_zero (bs : List Byte) (i : Nat) :
    Memory.read (Memory.ofBytes 0 bs) i = bs[i]? := by simp [Memory.read_ofBytes]

/-- A range read answers bs iff bs has the length asked for and every byte reads as it says. -/
theorem Memory.readRange_eq_some (m : Memory) (start n : Nat) (bs : List Byte) :
    Memory.readRange m start n = some bs ↔
      bs.length = n ∧ ∀ i, i < n → Memory.read m (start + i) = bs[i]? := by
  induction n generalizing start bs with
  | zero => cases bs <;> simp [Memory.readRange]
  | succ n ih =>
    simp only [Memory.readRange]
    constructor
    · intro h
      split at h
      · rename_i b bs' hb hbs
        obtain rfl : b :: bs' = bs := by simpa using h
        obtain ⟨hl, hr⟩ := (ih (start + 1) bs').1 hbs
        refine ⟨by simp [hl], fun i hi => ?_⟩
        cases i with
        | zero => simpa using hb
        | succ i => rw [show start + (i + 1) = start + 1 + i by omega, hr i (by omega)]; rfl
      · simp at h
    · rintro ⟨hl, hr⟩
      cases bs with
      | nil => simp at hl
      | cons b bs =>
        have h0 := hr 0 (by omega)
        have h1 := (ih (start + 1) bs).2 ⟨by simpa using hl, fun i hi => by
          have := hr (i + 1) (by omega)
          rw [show start + (i + 1) = start + 1 + i by omega] at this
          simpa using this⟩
        simp only [Nat.add_zero, List.getElem?_cons_zero] at h0
        rw [h0, h1]

/-- A range read answers nothing iff some byte of the range has no value. -/
theorem Memory.readRange_eq_none (m : Memory) (start n : Nat) :
    Memory.readRange m start n = none ↔ ∃ i, i < n ∧ Memory.read m (start + i) = none := by
  induction n generalizing start with
  | zero => simp [Memory.readRange]
  | succ n ih =>
    simp only [Memory.readRange]
    constructor
    · intro h
      cases hb : Memory.read m start with
      | none => exact ⟨0, by omega, by simpa using hb⟩
      | some b =>
        cases hr : Memory.readRange m (start + 1) n with
        | none =>
          obtain ⟨i, hi, h'⟩ := (ih (start + 1)).1 hr
          exact ⟨i + 1, by omega, by rw [← h']; congr 1; omega⟩
        | some bs => simp [hb, hr] at h
    · rintro ⟨i, hi, h⟩
      cases i with
      | zero => simp only [Nat.add_zero] at h; rw [h]
      | succ i =>
        have : Memory.readRange m (start + 1) n = none :=
          (ih (start + 1)).2 ⟨i, by omega, by rw [← h]; congr 1; omega⟩
        rw [this]; split <;> simp_all

/-- A range read depends only on the bytes of the range. -/
theorem Memory.readRange_congr {m m' : Memory} {start n : Nat}
    (h : ∀ i, i < n → Memory.read m (start + i) = Memory.read m' (start + i)) :
    Memory.readRange m start n = Memory.readRange m' start n := by
  induction n generalizing start with
  | zero => rfl
  | succ n ih =>
    have h0 := h 0 (by omega)
    have h1 := ih (start := start + 1) (fun i hi => by
      have := h (i + 1) (by omega)
      rwa [show start + (i + 1) = start + 1 + i by omega] at this)
    simp only [Nat.add_zero] at h0
    simp only [Memory.readRange, h0, h1]

@[simp] theorem Memory.readRange_ofBytes (bs : List Byte) :
    Memory.readRange (Memory.ofBytes 0 bs) 0 bs.length = some bs :=
  (Memory.readRange_eq_some _ _ _ _).2 ⟨rfl, fun i _ => by simp⟩

end Sys2Proof.Machine
end

