-- ==== Sys2Proof/Laws/State.lean ====
section
/-! SUPPORT. One lemma per field per update of State, true by rfl, so that no proof unfolds a record update. -/

namespace Sys2Proof.Machine

@[simp] theorem State.accept_cmd (s : State) (w : Word) : (s.accept w).cmd = w := rfl
@[simp] theorem State.accept_status (s : State) (w : Word) : (s.accept w).status = statusAccepted := rfl
@[simp] theorem State.accept_inLen (s : State) (w : Word) : (s.accept w).inLen = s.inLen := rfl
@[simp] theorem State.accept_outLen (s : State) (w : Word) : (s.accept w).outLen = Config.unspecifiedWord s.draws := rfl
@[simp] theorem State.accept_verOut (s : State) (w : Word) : (s.accept w).verOut = Config.unspecifiedWord (s.draws + 1) := rfl
@[simp] theorem State.accept_inBuf (s : State) (w : Word) : (s.accept w).inBuf = s.inBuf := rfl
@[simp] theorem State.accept_outBuf (s : State) (w : Word) : (s.accept w).outBuf = [] := rfl
@[simp] theorem State.accept_cfg (s : State) (w : Word) : (s.accept w).cfg = s.cfg := rfl
@[simp] theorem State.accept_events (s : State) (w : Word) : (s.accept w).events = s.events := rfl
@[simp] theorem State.accept_responses (s : State) (w : Word) : (s.accept w).responses = s.responses := rfl
@[simp] theorem State.accept_busyLeft (s : State) (w : Word) : (s.accept w).busyLeft = Config.busyTime (s.draws + 2) w s.inLen s.inBuf := rfl
@[simp] theorem State.accept_draws (s : State) (w : Word) : (s.accept w).draws = s.draws + 3 := rfl

@[simp] theorem State.completeOk_cmd (s : State) (out : List Byte) (ver : Byte) : (s.completeOk out ver).cmd = s.cmd := rfl
@[simp] theorem State.completeOk_status (s : State) (out : List Byte) (ver : Byte) : (s.completeOk out ver).status = statusSuccess := rfl
@[simp] theorem State.completeOk_inLen (s : State) (out : List Byte) (ver : Byte) : (s.completeOk out ver).inLen = s.inLen := rfl
@[simp] theorem State.completeOk_outLen (s : State) (out : List Byte) (ver : Byte) : (s.completeOk out ver).outLen = BitVec.ofNat 32 out.length := rfl
@[simp] theorem State.completeOk_verOut (s : State) (out : List Byte) (ver : Byte) : (s.completeOk out ver).verOut = ver.setWidth 32 := rfl
@[simp] theorem State.completeOk_inBuf (s : State) (out : List Byte) (ver : Byte) : (s.completeOk out ver).inBuf = s.inBuf := rfl
@[simp] theorem State.completeOk_outBuf (s : State) (out : List Byte) (ver : Byte) : (s.completeOk out ver).outBuf = Memory.ofBytes 0 out := rfl
@[simp] theorem State.completeOk_cfg (s : State) (out : List Byte) (ver : Byte) : (s.completeOk out ver).cfg = s.cfg := rfl
@[simp] theorem State.completeOk_events (s : State) (out : List Byte) (ver : Byte) : (s.completeOk out ver).events = s.events := rfl
@[simp] theorem State.completeOk_responses (s : State) (out : List Byte) (ver : Byte) : (s.completeOk out ver).responses = s.responses := rfl
@[simp] theorem State.completeOk_busyLeft (s : State) (out : List Byte) (ver : Byte) : (s.completeOk out ver).busyLeft = s.busyLeft := rfl
@[simp] theorem State.completeOk_draws (s : State) (out : List Byte) (ver : Byte) : (s.completeOk out ver).draws = s.draws := rfl

@[simp] theorem State.completeErr_cmd (s : State) (e : ErrorKind) : (s.completeErr e).cmd = s.cmd := rfl
@[simp] theorem State.completeErr_status (s : State) (e : ErrorKind) : (s.completeErr e).status = statusFailure e := rfl
@[simp] theorem State.completeErr_inLen (s : State) (e : ErrorKind) : (s.completeErr e).inLen = s.inLen := rfl
@[simp] theorem State.completeErr_outLen (s : State) (e : ErrorKind) : (s.completeErr e).outLen = 0 := rfl
@[simp] theorem State.completeErr_verOut (s : State) (e : ErrorKind) : (s.completeErr e).verOut = 0 := rfl
@[simp] theorem State.completeErr_inBuf (s : State) (e : ErrorKind) : (s.completeErr e).inBuf = s.inBuf := rfl
@[simp] theorem State.completeErr_outBuf (s : State) (e : ErrorKind) : (s.completeErr e).outBuf = [] := rfl
@[simp] theorem State.completeErr_cfg (s : State) (e : ErrorKind) : (s.completeErr e).cfg = s.cfg := rfl
@[simp] theorem State.completeErr_events (s : State) (e : ErrorKind) : (s.completeErr e).events = s.events := rfl
@[simp] theorem State.completeErr_responses (s : State) (e : ErrorKind) : (s.completeErr e).responses = s.responses := rfl
@[simp] theorem State.completeErr_busyLeft (s : State) (e : ErrorKind) : (s.completeErr e).busyLeft = s.busyLeft := rfl
@[simp] theorem State.completeErr_draws (s : State) (e : ErrorKind) : (s.completeErr e).draws = s.draws := rfl

@[simp] theorem State.applyReset_cmd (s : State) : s.applyReset.cmd = 0 := rfl
@[simp] theorem State.applyReset_status (s : State) : s.applyReset.status = 0 := rfl
@[simp] theorem State.applyReset_inLen (s : State) : s.applyReset.inLen = 0 := rfl
@[simp] theorem State.applyReset_outLen (s : State) : s.applyReset.outLen = 0 := rfl
@[simp] theorem State.applyReset_verOut (s : State) : s.applyReset.verOut = 0 := rfl
@[simp] theorem State.applyReset_inBuf (s : State) : s.applyReset.inBuf = [] := rfl
@[simp] theorem State.applyReset_outBuf (s : State) : s.applyReset.outBuf = [] := rfl
@[simp] theorem State.applyReset_cfg (s : State) : s.applyReset.cfg = s.cfg := rfl
@[simp] theorem State.applyReset_events (s : State) : s.applyReset.events = s.events := rfl
@[simp] theorem State.applyReset_responses (s : State) : s.applyReset.responses = s.responses := rfl
@[simp] theorem State.applyReset_busyLeft (s : State) : s.applyReset.busyLeft = 0 := rfl
@[simp] theorem State.applyReset_draws (s : State) : s.applyReset.draws = s.draws := rfl

@[simp] theorem State.launchWord_cmd (s : State) (w : Word) : (s.launchWord w).cmd = w := rfl
@[simp] theorem State.launchWord_status (s : State) (w : Word) : (s.launchWord w).status = statusAccepted := rfl
@[simp] theorem State.launchWord_inLen (s : State) (w : Word) : (s.launchWord w).inLen = s.inLen := rfl
@[simp] theorem State.launchWord_outLen (s : State) (w : Word) : (s.launchWord w).outLen = s.outLen := rfl
@[simp] theorem State.launchWord_verOut (s : State) (w : Word) : (s.launchWord w).verOut = s.verOut := rfl
@[simp] theorem State.launchWord_inBuf (s : State) (w : Word) : (s.launchWord w).inBuf = s.inBuf := rfl
@[simp] theorem State.launchWord_outBuf (s : State) (w : Word) : (s.launchWord w).outBuf = s.outBuf := rfl
@[simp] theorem State.launchWord_cfg (s : State) (w : Word) : (s.launchWord w).cfg = s.cfg := rfl
@[simp] theorem State.launchWord_events (s : State) (w : Word) : (s.launchWord w).events = s.events := rfl
@[simp] theorem State.launchWord_responses (s : State) (w : Word) : (s.launchWord w).responses = s.responses := rfl
@[simp] theorem State.launchWord_busyLeft (s : State) (w : Word) : (s.launchWord w).busyLeft = 0 := rfl
@[simp] theorem State.launchWord_draws (s : State) (w : Word) : (s.launchWord w).draws = s.draws := rfl

@[simp] theorem State.popEvent_cmd (s : State) (rest : List Event) : (s.popEvent rest).cmd = s.cmd := rfl
@[simp] theorem State.popEvent_status (s : State) (rest : List Event) : (s.popEvent rest).status = s.status := rfl
@[simp] theorem State.popEvent_inLen (s : State) (rest : List Event) : (s.popEvent rest).inLen = s.inLen := rfl
@[simp] theorem State.popEvent_outLen (s : State) (rest : List Event) : (s.popEvent rest).outLen = s.outLen := rfl
@[simp] theorem State.popEvent_verOut (s : State) (rest : List Event) : (s.popEvent rest).verOut = s.verOut := rfl
@[simp] theorem State.popEvent_inBuf (s : State) (rest : List Event) : (s.popEvent rest).inBuf = s.inBuf := rfl
@[simp] theorem State.popEvent_outBuf (s : State) (rest : List Event) : (s.popEvent rest).outBuf = s.outBuf := rfl
@[simp] theorem State.popEvent_cfg (s : State) (rest : List Event) : (s.popEvent rest).cfg = s.cfg := rfl
@[simp] theorem State.popEvent_events (s : State) (rest : List Event) : (s.popEvent rest).events = rest := rfl
@[simp] theorem State.popEvent_responses (s : State) (rest : List Event) : (s.popEvent rest).responses = s.responses := rfl
@[simp] theorem State.popEvent_busyLeft (s : State) (rest : List Event) : (s.popEvent rest).busyLeft = s.busyLeft - 1 := rfl
@[simp] theorem State.popEvent_draws (s : State) (rest : List Event) : (s.popEvent rest).draws = s.draws := rfl

@[simp] theorem State.drawByte_value (s : State) : s.drawByte.1 = Config.unspecifiedByte s.draws := rfl
@[simp] theorem State.drawByte_state (s : State) : s.drawByte.2 = { s with draws := s.draws + 1 } := rfl
@[simp] theorem State.drawWord_value (s : State) : s.drawWord.1 = Config.unspecifiedWord s.draws := rfl
@[simp] theorem State.drawWord_state (s : State) : s.drawWord.2 = { s with draws := s.draws + 1 } := rfl

@[simp] theorem State.complete_ok (s : State) (out : List Byte) (ver : Byte) :
    s.complete (.ok out ver) = s.completeOk out ver := rfl

@[simp] theorem State.complete_err (s : State) (e : ErrorKind) : s.complete (.err e) = s.completeErr e := rfl

theorem State.withFetchWord_eq (s : State) (nbits w : Nat) :
    s.withFetchWord nbits w = s.launchWord (tableWord nbits w) := rfl

end Sys2Proof.Machine
end

