-- ==== Sys2Proof/Laws/Ops.lean ====
section
/-! SUPPORT. One lemma per shared operation that says once everything it can do; proofs cite these and do not
unfold the operations. -/

namespace Sys2Proof.Machine

/-! ### STATUS -/

@[simp] theorem statusBusy_accepted : statusBusy statusAccepted = true := by decide
@[simp] theorem statusBusy_success : statusBusy statusSuccess = false := by decide
@[simp] theorem statusBusy_failure (e : ErrorKind) : statusBusy (statusFailure e) = false := by cases e <;> decide
@[simp] theorem statusBusy_zero : statusBusy 0#32 = false := by decide
@[simp] theorem statusDone_success : statusDone statusSuccess = true := by decide
@[simp] theorem statusDone_failure (e : ErrorKind) : statusDone (statusFailure e) = true := by cases e <;> decide
@[simp] theorem statusFail_success : statusFail statusSuccess = false := by decide
@[simp] theorem statusFail_failure (e : ErrorKind) : statusFail (statusFailure e) = true := by cases e <;> decide
@[simp] theorem statusFail_accepted : statusFail statusAccepted = false := by decide

theorem statusLegal_failure (e : ErrorKind) : statusLegal (statusFailure e) = true := by cases e <;> decide

@[simp] theorem State.busy_accept (s : State) (w : Word) : (s.accept w).busy = true := by simp [State.busy]
@[simp] theorem State.busy_completeOk (s : State) (out : List Byte) (ver : Byte) :
    (s.completeOk out ver).busy = false := by simp [State.busy]
@[simp] theorem State.busy_completeErr (s : State) (e : ErrorKind) : (s.completeErr e).busy = false := by
  simp [State.busy]
@[simp] theorem State.busy_complete (s : State) (r : Result) : (s.complete r).busy = false := by
  cases r <;> simp
@[simp] theorem State.busy_applyReset (s : State) : s.applyReset.busy = false := by simp [State.busy]
@[simp] theorem State.busy_launchWord (s : State) (w : Word) : (s.launchWord w).busy = true := by simp [State.busy]
@[simp] theorem State.busy_popEvent (s : State) (rest : List Event) : (s.popEvent rest).busy = s.busy := rfl

/-! ### The registry and the operands -/

@[simp] theorem lookup_tag (a : Alphabet) : lookup a.tag = .ok a := by cases a <;> decide

/-- A tag 0..3 is the tag of an alphabet. -/
theorem exists_tag {alph : BitVec 4} (h : alph.toNat ≤ 3) : ∃ a : Alphabet, alph = a.tag := by
  have h' : alph = 0 ∨ alph = 1 ∨ alph = 2 ∨ alph = 3 := by bv_omega
  rcases h' with rfl | rfl | rfl | rfl
  exacts [⟨.bitcoin, rfl⟩, ⟨.monero, rfl⟩, ⟨.flickr, rfl⟩, ⟨.ripple, rfl⟩]

theorem lookup_error {alph : BitVec 4} (h : 4 ≤ alph.toNat) : lookup alph = .error .invalidAlphabet := by
  obtain ⟨h0, h1, h2, h3⟩ : alph ≠ 0 ∧ alph ≠ 1 ∧ alph ≠ 2 ∧ alph ≠ 3 := by
    refine ⟨?_, ?_, ?_, ?_⟩ <;> rintro rfl <;> simp at h
  rw [lookup, if_neg h0, if_neg h1, if_neg h2, if_neg h3]

/-- precheck can only do one of three things (R194). -/
theorem precheck_bad_tag (cfg : Config) (inLen : Word) {alph : BitVec 4} (h : 4 ≤ alph.toNat) :
    precheck cfg inLen alph = .error .invalidAlphabet := by simp [precheck, lookup_error h]

theorem precheck_tag (cfg : Config) (inLen : Word) (a : Alphabet) :
    precheck cfg inLen a.tag = if inLen.toNat > cfg.inCap then .error .lengthError else .ok a := by
  simp [precheck]

/-- The input bytes of a ready state. -/
theorem inputBytes_ready {s : State} {input : List Byte} (h : Ready s input) :
    inputBytes s.inLen s.inBuf = some input := by
  obtain ⟨hl, -, hr⟩ := h
  exact (Memory.readRange_eq_some _ _ _ _).2 ⟨hl.symm, fun i hi => by simpa using hr i (by omega)⟩

theorem evaluate_ready {s : State} {input : List Byte} (h : Ready s input) (a : Alphabet)
    (body : List Byte → List Byte → Result) :
    evaluate s.cfg s.inLen s.inBuf a.tag body = some (body (s.cfg.alphabets.row a) input) := by
  have hc : ¬ s.inLen.toNat > s.cfg.inCap := by have := h.1; have := h.2.1; omega
  simp [evaluate, precheck_tag, hc, inputBytes_ready h]

/-- Everything evaluate can do (R198). -/
theorem evaluate_cases (cfg : Config) (inLen : Word) (inBuf : Memory) (alph : BitVec 4)
    (body : List Byte → List Byte → Result) :
    (4 ≤ alph.toNat ∧ evaluate cfg inLen inBuf alph body = some (.err .invalidAlphabet)) ∨
    (alph.toNat ≤ 3 ∧ cfg.inCap < inLen.toNat ∧ evaluate cfg inLen inBuf alph body = some (.err .lengthError)) ∨
    (alph.toNat ≤ 3 ∧ inLen.toNat ≤ cfg.inCap ∧ inputBytes inLen inBuf = none ∧
      evaluate cfg inLen inBuf alph body = none) ∨
    (∃ a input, alph = a.tag ∧ inLen.toNat ≤ cfg.inCap ∧ inputBytes inLen inBuf = some input ∧
      input.length = inLen.toNat ∧
      evaluate cfg inLen inBuf alph body = some (body (cfg.alphabets.row a) input)) := by
  by_cases h4 : 4 ≤ alph.toNat
  · exact .inl ⟨h4, by simp [evaluate, precheck_bad_tag _ _ h4]⟩
  · obtain ⟨a, rfl⟩ := exists_tag (alph := alph) (by omega)
    by_cases hl : cfg.inCap < inLen.toNat
    · exact .inr (.inl ⟨by omega, hl, by simp [evaluate, precheck_tag, hl]⟩)
    · cases hi : inputBytes inLen inBuf with
      | none => exact .inr (.inr (.inl ⟨by omega, by omega, rfl, by simp [evaluate, precheck_tag, hl, hi]⟩))
      | some input =>
        exact .inr (.inr (.inr ⟨a, input, rfl, by omega, rfl, ((Memory.readRange_eq_some _ _ _ _).1 hi).1,
          by simp [evaluate, precheck_tag, hl, hi]⟩))

/-! ### The commands -/

/-- A command's own part, on the row of its alphabet and its input. -/
def ownPart : Instr → List Byte → List Byte → Result
  | .enc _ _ => encResult
  | .encc _ _ => enccResult
  | .encv _ ver => encvResult ver
  | .dec _ _ => decResult
  | .decc _ _ => deccResult
  | .decv _ _ => decvResult

/-- Every command is its own part in the common frame. -/
theorem exec_eq_runCommand (i : Instr) (s : State) : exec i s = runCommand s i.alph (ownPart i) := by
  cases i <;> rfl

/-- A command goes on exactly when it has a result, and then completes with it. -/
theorem exec_next_iff (i : Instr) (s t : State) :
    exec i s = .next t ↔ ∃ r, evaluate s.cfg s.inLen s.inBuf i.alph (ownPart i) = some r ∧ t = s.complete r := by
  rw [exec_eq_runCommand, runCommand]
  split <;> rename_i h <;> simp [h, eq_comm]

/-- A command is refused exactly when its launch covers an unwritten input byte. -/
theorem exec_refused_iff (i : Instr) (s : State) :
    exec i s = .refused .unwrittenInput ↔ evaluate s.cfg s.inLen s.inBuf i.alph (ownPart i) = none := by
  rw [exec_eq_runCommand, runCommand]
  split <;> rename_i h <;> simp [h]

/-- A command on a ready state completes with its own part's result. -/
theorem exec_ready {s : State} {input : List Byte} (h : Ready s input) (a : Alphabet) (i : Instr)
    (hi : i.alph = a.tag) :
    exec i s = .next (s.complete (ownPart i (s.cfg.alphabets.row a) input)) :=
  (exec_next_iff _ _ _).2 ⟨_, by rw [hi, evaluate_ready h], rfl⟩

/-- What completing with an error leaves (R197). -/
theorem failedWith_completeErr (s : State) (e : ErrorKind) : FailedWith s (s.completeErr e) (statusFailure e) := by
  simp [FailedWith, SameOutside]

/-- What completing with a result leaves (R196), for any result shorter than 2^32 bytes. -/
theorem doneWith_completeOk (s : State) (out : List Byte) (ver : Byte) (h : out.length < 2 ^ 32) :
    DoneWith s (s.completeOk out ver) out ver := by
  refine ⟨rfl, ?_, by simp, rfl, by simp [SameOutside]⟩
  simpa using Nat.mod_eq_of_lt h

theorem sameOutside_complete (s : State) (r : Result) : SameOutside s (s.complete r) := by
  cases r <;> simp [SameOutside]

/-- A byte carried in a 32-bit value is the byte, and fits one byte (R52). -/
theorem setWidth_byte (b : Byte) : (b.setWidth 32).setWidth 8 = b ∧ (b.setWidth 32).toNat < 256 := by
  refine ⟨by simp, ?_⟩
  have := b.isLt
  simp; omega

theorem rowOk_iff (row : List Byte) : rowOk row = true ↔ row.length = 58 ∧ row.Nodup := by simp [rowOk]

end Sys2Proof.Machine

namespace Sys2Proof

/-! ### The configuration -/

theorem configOk_iff (inCap outCap : Nat) (t : AlphabetTable) :
    configOk inCap outCap t = true ↔
      1 ≤ inCap ∧ inCap ≤ 2962 ∧ outMin inCap ≤ outCap ∧ outCap ≤ 4096 ∧ ∀ a, rowOk (t.row a) = true := by
  have : (∀ a, rowOk (t.row a) = true) ↔
      rowOk t.bitcoin = true ∧ rowOk t.monero = true ∧ rowOk t.flickr = true ∧ rowOk t.ripple = true :=
    ⟨fun h => ⟨h .bitcoin, h .monero, h .flickr, h .ripple⟩, fun h a => by cases a <;> simp [AlphabetTable.row, h]⟩
  simp only [this, configOk, Bool.and_eq_true, decide_eq_true_eq]
  tauto

theorem Config.inCap_pos (c : Config) : 1 ≤ c.inCap := ((configOk_iff _ _ _).1 c.ok).1
theorem Config.inCap_le (c : Config) : c.inCap ≤ 2962 := ((configOk_iff _ _ _).1 c.ok).2.1
theorem Config.outMin_le (c : Config) : outMin c.inCap ≤ c.outCap := ((configOk_iff _ _ _).1 c.ok).2.2.1
theorem Config.outCap_le (c : Config) : c.outCap ≤ 4096 := ((configOk_iff _ _ _).1 c.ok).2.2.2.1
theorem Config.row_ok (c : Config) (a : Alphabet) : rowOk (c.alphabets.row a) = true :=
  ((configOk_iff _ _ _).1 c.ok).2.2.2.2 a

end Sys2Proof
end

