-- ==== Sys2Proof/Laws/Bus.lean ====
section
/-! SUPPORT. What a bus transaction and one move of the outside world can do, and what one step can do. -/

namespace Sys2Proof.Machine

/-! ### The address map -/

@[simp] theorem placeAt_cmd (c : Config) : placeAt c 0#14 = .reg .cmd := rfl
@[simp] theorem placeAt_status (c : Config) : placeAt c 4#14 = .reg .status := rfl
@[simp] theorem placeAt_inLen (c : Config) : placeAt c 8#14 = .reg .inLen := rfl
@[simp] theorem placeAt_outLen (c : Config) : placeAt c 12#14 = .reg .outLen := rfl
@[simp] theorem placeAt_verOut (c : Config) : placeAt c 16#14 = .reg .verOut := rfl

/-- The address map, with the offsets of R51 written out. -/
theorem placeAt_eq (c : Config) (a : Addr) :
    placeAt c a =
      if a.toNat = 0x0000 then .reg .cmd
      else if a.toNat = 0x0004 then .reg .status
      else if a.toNat = 0x0008 then .reg .inLen
      else if a.toNat = 0x000C then .reg .outLen
      else if a.toNat = 0x0010 then .reg .verOut
      else if 0x1000 ≤ a.toNat ∧ a.toNat < 0x1000 + c.inCap then .inByte (a.toNat - 0x1000)
      else if 0x2000 ≤ a.toNat ∧ a.toNat < 0x2000 + c.outCap then .outByte (a.toNat - 0x2000)
      else .unmapped := rfl

/-- IN[i] stands at 0x1000 + i (R51). -/
theorem placeAt_in (c : Config) {i : Nat} (h : i < c.inCap) : placeAt c (BitVec.ofNat 14 (0x1000 + i)) = .inByte i := by
  have hc := c.inCap_le
  have ha : (BitVec.ofNat 14 (0x1000 + i)).toNat = 0x1000 + i := by
    rw [BitVec.toNat_ofNat]; exact Nat.mod_eq_of_lt (by omega)
  rw [placeAt_eq, ha, if_neg (by omega), if_neg (by omega), if_neg (by omega), if_neg (by omega), if_neg (by omega),
    if_pos (by omega)]
  rw [Nat.add_sub_cancel_left]

/-- OUT[i] stands at 0x2000 + i (R51). -/
theorem placeAt_out (c : Config) {i : Nat} (h : i < c.outCap) :
    placeAt c (BitVec.ofNat 14 (0x2000 + i)) = .outByte i := by
  have hc := c.inCap_le
  have ho := c.outCap_le
  have ha : (BitVec.ofNat 14 (0x2000 + i)).toNat = 0x2000 + i := by
    rw [BitVec.toNat_ofNat]; exact Nat.mod_eq_of_lt (by omega)
  rw [placeAt_eq, ha, if_neg (by omega), if_neg (by omega), if_neg (by omega), if_neg (by omega), if_neg (by omega),
    if_neg (by omega), if_pos (by omega)]
  rw [Nat.add_sub_cancel_left]

/-- Everything placeAt can answer, with the addresses it answers it for (R51). -/
theorem placeAt_cases (c : Config) (a : Addr) :
    (a = 0x0000 ∧ placeAt c a = .reg .cmd) ∨ (a = 0x0004 ∧ placeAt c a = .reg .status) ∨
    (a = 0x0008 ∧ placeAt c a = .reg .inLen) ∨ (a = 0x000C ∧ placeAt c a = .reg .outLen) ∨
    (a = 0x0010 ∧ placeAt c a = .reg .verOut) ∨
    (0x1000 ≤ a.toNat ∧ a.toNat < 0x1000 + c.inCap ∧ placeAt c a = .inByte (a.toNat - 0x1000)) ∨
    (0x2000 ≤ a.toNat ∧ a.toNat < 0x2000 + c.outCap ∧ placeAt c a = .outByte (a.toNat - 0x2000)) ∨
    (a.toNat ≠ 0x0000 ∧ a.toNat ≠ 0x0004 ∧ a.toNat ≠ 0x0008 ∧ a.toNat ≠ 0x000C ∧ a.toNat ≠ 0x0010 ∧
      ¬ (0x1000 ≤ a.toNat ∧ a.toNat < 0x1000 + c.inCap) ∧ ¬ (0x2000 ≤ a.toNat ∧ a.toNat < 0x2000 + c.outCap) ∧
      placeAt c a = .unmapped) := by
  have he : ∀ n : Nat, n < 2 ^ 14 → a.toNat = n → a = BitVec.ofNat 14 n := fun n _ h => by
    rw [← h]; simp
  by_cases h0 : a.toNat = 0x0000
  · exact .inl ⟨he _ (by norm_num) h0, by simp [placeAt_eq, h0]⟩
  by_cases h4 : a.toNat = 0x0004
  · exact .inr (.inl ⟨he _ (by norm_num) h4, by simp [placeAt_eq, h4]⟩)
  by_cases h8 : a.toNat = 0x0008
  · exact .inr (.inr (.inl ⟨he _ (by norm_num) h8, by simp [placeAt_eq, h8]⟩))
  by_cases hc : a.toNat = 0x000C
  · exact .inr (.inr (.inr (.inl ⟨he _ (by norm_num) hc, by simp [placeAt_eq, hc]⟩)))
  by_cases h10 : a.toNat = 0x0010
  · exact .inr (.inr (.inr (.inr (.inl ⟨he _ (by norm_num) h10, by simp [placeAt_eq, h10]⟩))))
  refine .inr (.inr (.inr (.inr (.inr ?_))))
  have hu : placeAt c a = if 0x1000 ≤ a.toNat ∧ a.toNat < 0x1000 + c.inCap then .inByte (a.toNat - 0x1000)
      else if 0x2000 ≤ a.toNat ∧ a.toNat < 0x2000 + c.outCap then .outByte (a.toNat - 0x2000) else .unmapped := by
    rw [placeAt_eq, if_neg h0, if_neg h4, if_neg h8, if_neg hc, if_neg h10]
  by_cases hi : 0x1000 ≤ a.toNat ∧ a.toNat < 0x1000 + c.inCap
  · exact .inl ⟨hi.1, hi.2, by rw [hu, if_pos hi]⟩
  by_cases ho : 0x2000 ≤ a.toNat ∧ a.toNat < 0x2000 + c.outCap
  · exact .inr (.inl ⟨ho.1, ho.2, by rw [hu, if_neg hi, if_pos ho]⟩)
  · exact .inr (.inr ⟨h0, h4, h8, hc, h10, hi, ho, by rw [hu, if_neg hi, if_neg ho]⟩)

/-! ### Transactions -/

/-- A read changes nothing but the count of free values drawn (R59). -/
theorem busRead_state (s : State) (a : Addr) (n : Nat) :
    (busRead s a n).2 = s ∨ (busRead s a n).2 = { s with draws := s.draws + 1 } := by
  rcases placeAt_cases s.cfg a with h | h | h | h | h | h | h | h
  · simp only [busRead, h.2]; split <;> simp [readReg]
  · simp only [busRead, h.2]; split <;> simp [readReg]
  · simp only [busRead, h.2]; split <;> simp [readReg]
  · simp only [busRead, h.2]; split <;> simp [readReg]; split <;> simp
  · simp only [busRead, h.2]; split <;> simp [readReg]; split <;> simp
  · simp only [busRead, h.2.2]; split <;> simp [readByte]; split <;> simp
  · simp only [busRead, h.2.2]; repeat' split
    all_goals simp [readByte]
    split <;> simp
  · simp only [busRead, h.2.2.2.2.2.2.2]; simp

/-- Everything a write can do (R53): it is refused, or it is an acceptance, or it stores IN_LEN or one byte of IN. -/
theorem busWrite_cases (s : State) (a : Addr) (n : Nat) (v : Word) :
    (busWrite s a n v = (.error, s)) ∨
    (s.busy = false ∧ n = 4 ∧ a = 0x0000 ∧ busWrite s a n v = (.ok, s.accept v)) ∨
    (s.busy = false ∧ n = 4 ∧ a = 0x0008 ∧ busWrite s a n v = (.ok, { s with inLen := v })) ∨
    (s.busy = false ∧ n = 1 ∧ v.toNat < 256 ∧ ∃ i, i < s.cfg.inCap ∧ a.toNat = 0x1000 + i ∧
      busWrite s a n v = (.ok, { s with inBuf := Memory.write s.inBuf i (v.setWidth 8) })) := by
  rcases placeAt_cases s.cfg a with h | h | h | h | h | h | h | h
  · by_cases hc : n = 4 ∧ s.busy = false
    · exact .inr (.inl ⟨hc.2, hc.1, h.1, by simp only [busWrite, h.2, if_pos hc]⟩)
    · exact .inl (by simp only [busWrite, h.2, if_neg hc])
  · exact .inl (by simp only [busWrite, h.2])
  · by_cases hc : n = 4 ∧ s.busy = false
    · exact .inr (.inr (.inl ⟨hc.2, hc.1, h.1, by simp only [busWrite, h.2, if_pos hc]⟩))
    · exact .inl (by simp only [busWrite, h.2, if_neg hc])
  · exact .inl (by simp only [busWrite, h.2])
  · exact .inl (by simp only [busWrite, h.2])
  · by_cases hc : n = 1 ∧ v.toNat < 256 ∧ s.busy = false
    · exact .inr (.inr (.inr ⟨hc.2.2, hc.1, hc.2.1, a.toNat - 0x1000, by omega, by omega,
        by simp only [busWrite, h.2.2, if_pos hc]⟩))
    · exact .inl (by simp only [busWrite, h.2.2, if_neg hc])
  · exact .inl (by simp only [busWrite, h.2.2])
  · exact .inl (by simp only [busWrite, h.2.2.2.2.2.2.2])

/-- While busy a transaction changes nothing but the count of free values drawn (R60, R61). -/
theorem busAccess_busy (s : State) (t : Txn) (hb : s.busy = true) :
    (busAccess s t).2 = s ∨ (busAccess s t).2 = { s with draws := s.draws + 1 } := by
  cases t with
  | memRead a n => exact busRead_state s a n
  | memWrite a n v =>
    rcases busWrite_cases s a n v with e | ⟨h, -⟩ | ⟨h, -⟩ | ⟨h, -⟩
    · exact .inl (by rw [busAccess, e])
    all_goals rw [h] at hb; cases hb

/-- While busy a move of the outside world other than `rst` leaves the command in flight and its input alone and uses
up one unit of the busy time (R60, R14). -/
theorem hostMove_busy (s : State) (e : Event) (rest : List Event) (hb : s.busy = true) (he : e ≠ .rst) :
    (hostMove (s.popEvent rest) e).cmd = s.cmd ∧ (hostMove (s.popEvent rest) e).inLen = s.inLen ∧
    (hostMove (s.popEvent rest) e).inBuf = s.inBuf ∧ (hostMove (s.popEvent rest) e).cfg = s.cfg ∧
    (hostMove (s.popEvent rest) e).status = s.status ∧
    (hostMove (s.popEvent rest) e).busyLeft = s.busyLeft - 1 := by
  have key : ∀ t, (serve (s.popEvent rest) t).cmd = s.cmd ∧ (serve (s.popEvent rest) t).inLen = s.inLen ∧
      (serve (s.popEvent rest) t).inBuf = s.inBuf ∧ (serve (s.popEvent rest) t).cfg = s.cfg ∧
      (serve (s.popEvent rest) t).status = s.status ∧ (serve (s.popEvent rest) t).busyLeft = s.busyLeft - 1 := by
    intro t
    rcases busAccess_busy (s.popEvent rest) t hb with h | h <;>
      simp only [serve, h] <;> exact ⟨rfl, rfl, rfl, rfl, rfl, rfl⟩
  cases e with
  | bus t => exact key t
  | waitDone => simp only [hostMove]; split <;> exact key _
  | dump => exact key _
  | rst => exact absurd rfl he

/-! ### Steps -/

/-- Everything one step can do: the engine's step, idling, or the next move of the outside world. -/
theorem step_cases (s : State) :
    (s.engineTurn = true ∧ step s = engineStep s) ∨
    (s.engineTurn = false ∧ s.events = [] ∧ step s = .next s) ∨
    (s.engineTurn = false ∧ ∃ e rest, s.events = e :: rest ∧ step s = .next (hostMove (s.popEvent rest) e)) := by
  cases h : s.engineTurn with
  | true => exact .inl ⟨rfl, by simp [step, h]⟩
  | false =>
    cases he : s.events with
    | nil => exact .inr (.inl ⟨rfl, rfl, by simp [step, h, he]⟩)
    | cons e rest => exact .inr (.inr ⟨rfl, e, rest, rfl, by simp [step, h, he]⟩)

/-- Everything the engine's step can do: exec of the decoded command, or IllegalCommand. -/
theorem engineStep_cases (s : State) :
    (∃ i, decodeCmd s.cmd = .ok i ∧ engineStep s = exec i s) ∨
    ((decodeCmd s.cmd).toOption = none ∧ engineStep s = .next (s.completeErr .illegalCommand)) := by
  cases h : decodeCmd s.cmd with
  | ok i => exact .inl ⟨i, rfl, by simp [engineStep, h]⟩
  | error e => exact .inr ⟨rfl, by simp [engineStep, h]⟩

/-- The engine's turn comes only while a command is in flight. -/
theorem busy_of_engineTurn {s : State} (h : s.engineTurn = true) : s.busy = true := by
  simp only [State.engineTurn, Bool.and_eq_true] at h; exact h.1

/-- Without a command in flight it is never the engine's turn. -/
theorem engineTurn_idle {s : State} (h : s.busy = false) : s.engineTurn = false := by simp [State.engineTurn, h]

/-- A run of k + 1 steps is a step and then a run of k. -/
theorem run_succ (s t : State) (k : Nat) (h : step s = .next t) :
    Sys2Proof.core.run (k + 1) s = Sys2Proof.core.run k t := by
  have h' : Sys2Proof.core.step s = .next t := h
  simp only [Host.Core.run, h']

/-- Under NO_RESET_IN_FLIGHT a move served while busy time is left is not `rst` (R236). -/
theorem noResetInFlight_head {s : State} (h : NoResetInFlight s) (hl : 0 < s.busyLeft) : s.events.head? ≠ some .rst :=
  h 0 s hl rfl

/-- A step that uses up one unit of the busy time keeps NO_RESET_IN_FLIGHT (R236). -/
theorem noResetInFlight_step {s t : State} (h : NoResetInFlight s) (hs : step s = .next t)
    (hl : t.busyLeft + 1 = s.busyLeft) : NoResetInFlight t :=
  fun k u hk hu => h (k + 1) u (by omega) (by rw [run_succ s t k hs, hu])

/-- A LOAD that fits the offsets makes one transaction per byte (R87). -/
theorem hostLoad_eq (bs : List Byte) (h : bs.length ≤ 0x3000) :
    hostLoad bs = hostBytes 0 bs ++ hostWr .inLen (BitVec.ofNat 32 bs.length) := by
  rw [hostLoad, List.take_of_length_le h]

@[simp] theorem run_zero (s : State) : Sys2Proof.core.run 0 s = .next s := rfl

end Sys2Proof.Machine
end

