-- ==== Sys2Proof/Laws/Converter.lean ====
section
/-! SUPPORT. The small lemmas of the converter's functions, so that no later proof unfolds their fuel. -/

namespace Sys2Proof.Machine

theorem digitsAux_fuel {base : Nat} (hb : 2 ≤ base) (v f g : Nat) (hf : v < 2 ^ f) (hg : v < 2 ^ g) :
    digitsAux base f v = digitsAux base g v := by
  induction f generalizing v g with
  | zero =>
    obtain rfl : v = 0 := by simpa using hf
    cases g <;> simp [digitsAux]
  | succ f ih =>
    cases g with
    | zero =>
      obtain rfl : v = 0 := by simpa using hg
      simp [digitsAux]
    | succ g =>
      simp only [digitsAux]
      split
      · rfl
      · have hd : v / base ≤ v / 2 := Nat.div_le_div_left hb (by omega)
        rw [ih (v / base) g (by rw [pow_succ] at hf; omega) (by rw [pow_succ] at hg; omega)]

@[simp] theorem digitsLe_zero (base : Nat) : digitsLe base 0 = [] := by simp [digitsLe, digitsAux]

/-- The recursion of R137. -/
theorem digitsLe_pos {base v : Nat} (hb : 2 ≤ base) (hv : v ≠ 0) :
    digitsLe base v = (v % base) :: digitsLe base (v / base) := by
  have h1 : v < 2 ^ (v.log2 + 1) := Nat.lt_log2_self
  have hd : v / base ≤ v / 2 := Nat.div_le_div_left hb (by omega)
  rw [digitsLe, digitsAux, if_neg hv, digitsLe,
    digitsAux_fuel hb (v / base) v.log2 _ (by rw [pow_succ] at h1; omega) Nat.lt_log2_self]

theorem digitsLe_lt {base : Nat} (hb : 2 ≤ base) (v : Nat) : ∀ d ∈ digitsLe base v, d < base := by
  induction v using Nat.strong_induction_on with
  | _ v ih =>
    by_cases hv : v = 0
    · simp [hv]
    · rw [digitsLe_pos hb hv]
      intro d hd
      rcases List.mem_cons.1 hd with rfl | hd
      · exact Nat.mod_lt _ (by omega)
      · exact ih _ (Nat.div_lt_self (by omega) hb) d hd

@[simp] theorem beNat_nil : beNat [] = 0 := rfl

/-- `be_nat(b ++ [x]) = be_nat(b) * 256 + x` (R17). -/
@[simp] theorem beNat_append_singleton (b : List Byte) (x : Byte) : beNat (b ++ [x]) = beNat b * 256 + x.toNat := by
  simp [beNat]

@[simp] theorem foldDigits_nil : foldDigits [] = 0 := rfl

@[simp] theorem foldDigits_append_singleton (ds : List Nat) (d : Nat) :
    foldDigits (ds ++ [d]) = foldDigits ds * 58 + d := by simp [foldDigits]

@[simp] theorem leadingCount_nil (z : Byte) : leadingCount z [] = 0 := rfl

theorem leadingCount_cons (z c : Byte) (b : List Byte) :
    leadingCount z (c :: b) = if c = z then leadingCount z b + 1 else 0 := by
  simp only [leadingCount, List.takeWhile_cons, beq_iff_eq]
  split <;> simp

theorem leadingCount_le (z : Byte) (b : List Byte) : leadingCount z b ≤ b.length :=
  (List.takeWhile_sublist _).length_le

@[simp] theorem textDigits_nil (row : List Byte) : textDigits row [] = some [] := rfl

theorem textDigits_cons (row : List Byte) (c : Byte) (t : List Byte) :
    textDigits row (c :: t) = if c ∈ row then (textDigits row t).map (row.idxOf c :: ·) else none := by
  simp only [textDigits, inverse]
  split <;> rename_i h <;> cases ht : textDigits row t <;> simp_all

/-- A text decodes exactly when every byte of it is a symbol (R145), and its digits are the symbols' places. -/
theorem textDigits_eq (row t : List Byte) :
    textDigits row t = if ∀ c ∈ t, c ∈ row then some (t.map row.idxOf) else none := by
  induction t with
  | nil => simp
  | cons c t ih =>
    rw [textDigits_cons, ih]
    by_cases hc : c ∈ row <;> by_cases ht : ∀ c ∈ t, c ∈ row <;> simp [hc, ht]

end Sys2Proof.Machine
end

