-- ==== Sys2Proof/Laws/Checksum.lean ====
section
/-! SUPPORT. Lengths: of the byte sequences the checksum unit makes, and of the converter's digit sequences. -/

namespace Sys2Proof.Machine

@[simp] theorem length_beBytes (n v : Nat) : (beBytes n v).length = n := by
  induction n with
  | zero => rfl
  | succ n ih => simp [beBytes, ih]

/-- A digest has 32 bytes (R126). -/
@[simp] theorem length_sha256 (m : List Byte) : (sha256 m).length = 32 := by simp [sha256, shaDigest]

/-- A tag has 4 bytes (R110). -/
@[simp] theorem length_checksum (p : List Byte) (v : Option Byte) : (checksum p v).length = 4 := by
  simp [checksum]

theorem checksum_none (p : List Byte) : checksum p none = (sha256 (sha256 p)).take 4 := rfl

theorem checksum_some (p : List Byte) (v : Byte) : checksum p (some v) = checksum (v :: p) none := rfl

/-- A value below base^k has at most k digits. -/
theorem length_digitsLe_le {base : Nat} (hb : 2 ≤ base) (k v : Nat) (hv : v < base ^ k) :
    (digitsLe base v).length ≤ k := by
  induction k generalizing v with
  | zero =>
    obtain rfl : v = 0 := by simpa using hv
    simp
  | succ k ih =>
    by_cases h0 : v = 0
    · simp [h0]
    · rw [digitsLe_pos hb h0, List.length_cons]
      have := ih (v / base) (by rw [Nat.div_lt_iff_lt_mul (by omega)]; rwa [pow_succ] at hv)
      omega

/-- A sequence of n bytes is a number below 256^n. -/
theorem beNat_lt (b : List Byte) : beNat b < 256 ^ b.length := by
  induction b using List.reverseRecOn with
  | nil => simp
  | append_singleton b x ih =>
    have hx := x.isLt
    rw [beNat_append_singleton, List.length_append, List.length_singleton, pow_succ]
    omega

/-- A sequence of n base-58 digits is a number below 58^n. -/
theorem foldDigits_lt (ds : List Nat) (h : ∀ d ∈ ds, d < 58) : foldDigits ds < 58 ^ ds.length := by
  induction ds using List.reverseRecOn with
  | nil => simp
  | append_singleton ds d ih =>
    have hd := h d (by simp)
    have := ih (fun x hx => h x (by simp [hx]))
    rw [foldDigits_append_singleton, List.length_append, List.length_singleton, pow_succ]
    omega

end Sys2Proof.Machine
end

