-- ==== Sys2Proof/Laws/Encoding.lean ====
section
/-! SUPPORT. The laws of format C and of the decoder: the fields of an assembled word, a word from its fields and
from its lanes, the fields as numbers, and everything decodeCmd can answer. -/

namespace Sys2Proof

/-- The bits of a word of format C (R76). -/
theorem getLsbD_formatC (op alph : BitVec 4) (ver : Byte) (i : Nat) :
    (formatC op alph ver).getLsbD i =
      if i < 4 then op.getLsbD i else if i < 8 then alph.getLsbD (i - 4)
      else if i < 16 then ver.getLsbD (i - 8) else false := by
  change ((0#16 ++ ver ++ alph ++ op : BitVec (16 + 8 + 4 + 4))).getLsbD i = _
  simp only [BitVec.getLsbD_append]
  by_cases h4 : i < 4
  · simp [h4]
  by_cases h8 : i < 8
  · simp [h4, h8, show i - 4 < 4 by omega]
  by_cases h16 : i < 16
  · simp [h4, h8, h16, show ¬ i - 4 < 4 by omega, show i - 4 - 4 = i - 8 by omega]; intro; omega
  · simp [h4, h8, h16, show ¬ i - 4 < 4 by omega, show ¬ i - 4 - 4 < 8 by omega]

theorem fieldOp_formatC (op alph : BitVec 4) (ver : Byte) : fieldOp (formatC op alph ver) = op := by
  ext i hi
  simp [fieldOp, getLsbD_formatC, hi]

theorem fieldAlph_formatC (op alph : BitVec 4) (ver : Byte) : fieldAlph (formatC op alph ver) = alph := by
  ext i hi
  simpa [fieldAlph, getLsbD_formatC, show 4 + i < 8 by omega] using BitVec.getLsbD_eq_getElem hi

theorem fieldVer_formatC (op alph : BitVec 4) (ver : Byte) : fieldVer (formatC op alph ver) = ver := by
  ext i hi
  simpa [fieldVer, getLsbD_formatC, show ¬ 8 + i < 4 by omega, show 8 + i < 16 by omega] using
    BitVec.getLsbD_eq_getElem hi

theorem fieldRsv_formatC (op alph : BitVec 4) (ver : Byte) : fieldRsv (formatC op alph ver) = 0 := by
  ext i hi
  simp [fieldRsv, getLsbD_formatC, show ¬ 16 + i < 4 by omega, show ¬ 16 + i < 8 by omega]

/-- A word with RSV = 0 is made of its fields. -/
theorem formatC_fields (w : Word) (h : fieldRsv w = 0) : formatC (fieldOp w) (fieldAlph w) (fieldVer w) = w := by
  apply BitVec.eq_of_getLsbD_eq
  intro i hi
  rw [getLsbD_formatC]
  simp only [fieldOp, fieldAlph, fieldVer, BitVec.getLsbD_extractLsb']
  split
  · simp [*]
  · split
    · simp [show i - 4 < 4 by omega, show 4 + (i - 4) = i by omega]
    · split
      · simp [show i - 8 < 8 by omega, show 8 + (i - 8) = i by omega]
      · have := congrArg (fun v : BitVec 16 => v.getLsbD (i - 16)) h
        simpa [fieldRsv, show i - 16 < 16 by omega, show 16 + (i - 16) = i by omega] using this.symm

/-- A register from its four lanes is the register (R54). -/
theorem ofLanes_lanes (w : Word) :
    ofLanes (w.extractLsb' 0 8) (w.extractLsb' 8 8) (w.extractLsb' 16 8) (w.extractLsb' 24 8) = w := by
  apply BitVec.eq_of_getLsbD_eq
  intro i hi
  change ((w.extractLsb' 24 8 ++ w.extractLsb' 16 8 ++ w.extractLsb' 8 8 ++ w.extractLsb' 0 8 :
    BitVec (8 + 8 + 8 + 8))).getLsbD i = _
  simp only [BitVec.getLsbD_append, BitVec.getLsbD_extractLsb']
  repeat' split
  · simp [*]
  · simp [*, show 8 + (i - 8) = i by omega]
  · simp [*, show i - 8 - 8 < 8 by omega, show 16 + (i - 8 - 8) = i by omega]
  · simp [show i - 8 - 8 - 8 < 8 by omega, show 24 + (i - 8 - 8 - 8) = i by omega]

/-- Decoding the four lanes of a word is decoding the word. -/
theorem decodeLanes_lanes (w : Word) : decodeLanes (lanes w) = decodeCmd w := by
  simp only [lanes, decodeLanes, ofLanes_lanes]

theorem fieldOp_toNat (w : Word) : (fieldOp w).toNat = w.toNat % 16 := by simp [fieldOp]

theorem fieldAlph_toNat (w : Word) : (fieldAlph w).toNat = w.toNat / 16 % 16 := by
  simp [fieldAlph, Nat.shiftRight_eq_div_pow]

theorem fieldVer_toNat (w : Word) : (fieldVer w).toNat = w.toNat / 256 % 256 := by
  simp [fieldVer, Nat.shiftRight_eq_div_pow]

theorem fieldRsv_eq_zero_iff (w : Word) : fieldRsv w = 0 ↔ w.toNat / 2 ^ 16 = 0 := by
  have := w.isLt
  rw [← BitVec.toNat_inj]
  simp [fieldRsv, Nat.shiftRight_eq_div_pow]; omega

theorem fieldOp_eq_iff (w : Word) (k : BitVec 4) : fieldOp w = k ↔ w.toNat % 16 = k.toNat := by
  rw [← BitVec.toNat_inj, fieldOp_toNat]

/-- Everything decodeCmd can answer (R82). -/
theorem decodeCmd_cases (w : Word) :
    (fieldRsv w ≠ 0 ∧ decodeCmd w = .error .reservedNotZero) ∨
    (fieldRsv w = 0 ∧ fieldOp w = 1 ∧ decodeCmd w = .ok (.enc (fieldAlph w) (fieldVer w))) ∨
    (fieldRsv w = 0 ∧ fieldOp w = 2 ∧ decodeCmd w = .ok (.encc (fieldAlph w) (fieldVer w))) ∨
    (fieldRsv w = 0 ∧ fieldOp w = 3 ∧ decodeCmd w = .ok (.encv (fieldAlph w) (fieldVer w))) ∨
    (fieldRsv w = 0 ∧ fieldOp w = 5 ∧ decodeCmd w = .ok (.dec (fieldAlph w) (fieldVer w))) ∨
    (fieldRsv w = 0 ∧ fieldOp w = 6 ∧ decodeCmd w = .ok (.decc (fieldAlph w) (fieldVer w))) ∨
    (fieldRsv w = 0 ∧ fieldOp w = 7 ∧ decodeCmd w = .ok (.decv (fieldAlph w) (fieldVer w))) ∨
    (fieldRsv w = 0 ∧ (fieldOp w = 0 ∨ fieldOp w = 4 ∨ 8 ≤ (fieldOp w).toNat) ∧
      decodeCmd w = .error .noSuchOp) := by
  by_cases hr : fieldRsv w = 0
  · have hd : decodeCmd w =
        if fieldOp w = 1 then .ok (.enc (fieldAlph w) (fieldVer w))
        else if fieldOp w = 2 then .ok (.encc (fieldAlph w) (fieldVer w))
        else if fieldOp w = 3 then .ok (.encv (fieldAlph w) (fieldVer w))
        else if fieldOp w = 5 then .ok (.dec (fieldAlph w) (fieldVer w))
        else if fieldOp w = 6 then .ok (.decc (fieldAlph w) (fieldVer w))
        else if fieldOp w = 7 then .ok (.decv (fieldAlph w) (fieldVer w))
        else .error .noSuchOp := by simp only [decodeCmd, hr, ne_eq, not_true_eq_false, if_false]
    rw [hd]
    generalize fieldOp w = op at *
    simp only [hr, ne_eq, not_true_eq_false, false_and, true_and, false_or]
    have hop := op.isLt
    have hn : ∀ n : Nat, n < 16 → op.toNat = n → op = BitVec.ofNat 4 n := fun n _ h => by rw [← h]; simp
    by_cases h1 : op = 1
    · simp [h1]
    by_cases h2 : op = 2
    · simp [h2]
    by_cases h3 : op = 3
    · simp [h3]
    by_cases h5 : op = 5
    · simp [h5]
    by_cases h6 : op = 6
    · simp [h6]
    by_cases h7 : op = 7
    · simp [h7]
    simp only [h1, h2, h3, h5, h6, h7, if_false, false_and, false_or, and_true]
    by_cases h0 : op.toNat = 0
    · exact .inl (hn 0 (by omega) h0)
    by_cases h4 : op.toNat = 4
    · exact .inr (.inl (hn 4 (by omega) h4))
    have e1 := mt (hn 1 (by omega)) h1
    have e2 := mt (hn 2 (by omega)) h2
    have e3 := mt (hn 3 (by omega)) h3
    have e5 := mt (hn 5 (by omega)) h5
    have e6 := mt (hn 6 (by omega)) h6
    have e7 := mt (hn 7 (by omega)) h7
    omega
  · exact .inl ⟨hr, by rw [decodeCmd, if_pos hr]⟩

/-- The mask of R78 keeps OP and drops the operand fields of an assembled word. -/
theorem formatC_and_mask (op alph : BitVec 4) (ver : Byte) :
    formatC op alph ver &&& (0xFFFF000F : Word) = op.setWidth 32 := by
  apply BitVec.eq_of_getLsbD_eq
  intro i hi
  rw [BitVec.getLsbD_and, getLsbD_formatC]
  by_cases h : i < 4
  · have hm : (0xFFFF000F : Word).getLsbD i = true := by interval_cases i <;> rfl
    rw [hm, if_pos h, Bool.and_true, BitVec.getLsbD_setWidth]; simp [hi]
  · by_cases h16 : i < 16
    · have hm : (0xFFFF000F : Word).getLsbD i = false := by interval_cases i <;> rfl
      rw [hm, Bool.and_false, BitVec.getLsbD_setWidth, BitVec.getLsbD_of_ge op i (by omega), Bool.and_false]
    · rw [if_neg h, if_neg (by omega), if_neg h16, BitVec.getLsbD_setWidth, BitVec.getLsbD_of_ge op i (by omega),
        Bool.false_and, Bool.and_false]

end Sys2Proof
end

