-- ==== Sys2Proof/Laws/PerInstr.lean ====
section
/-! SUPPORT. The one statement made per command: its words under the mask of 30_encoding.md R78. -/

namespace Sys2Proof.Laws.EncodingMatch

/-- Whatever its operands, the command's word under the mask 0xFFFF000F is its match value, its OP (R78). -/
def Statement (i : Instr) : Prop := encode i &&& 0xFFFF000F = i.op.setWidth 32

theorem enc (alph : BitVec 4) (ver : Byte) : Statement (.enc alph ver) := formatC_and_mask _ _ _

theorem encc (alph : BitVec 4) (ver : Byte) : Statement (.encc alph ver) := formatC_and_mask _ _ _

theorem encv (alph : BitVec 4) (ver : Byte) : Statement (.encv alph ver) := formatC_and_mask _ _ _

theorem dec (alph : BitVec 4) (ver : Byte) : Statement (.dec alph ver) := formatC_and_mask _ _ _

theorem decc (alph : BitVec 4) (ver : Byte) : Statement (.decc alph ver) := formatC_and_mask _ _ _

theorem decv (alph : BitVec 4) (ver : Byte) : Statement (.decv alph ver) := formatC_and_mask _ _ _

end Sys2Proof.Laws.EncodingMatch
end

