-- ==== Sys2Proof/Tests/Slice0.lean ====
section
/-! SUPPORT. The model's own tests: what WellFormed and the configuration refuse, words written out from the spec's
encoding, two small runs of one step per command on vectors of 95_test_vectors.md, and for every statement with
hypotheses a concrete state and operands that meet them. -/

namespace Sys2Proof.Tests

open Sys2Proof.Machine

/-! ### Helpers -/

/-- The reset state with the bytes bs written to IN and their count to IN_LEN. -/
def written (bs : List Byte) : State :=
  { State.reset with inLen := BitVec.ofNat 32 bs.length, inBuf := Memory.ofBytes 0 bs }

/-- That state with the word w accepted and k units of busy time left. -/
def launched (w : Word) (bs : List Byte) (k : Nat) (es : List Event) : State :=
  { written bs with cmd := w, status := 0x00000001, busyLeft := k, events := es }

/-- The state after a successful command with output bs, and the moves es still to come. -/
def done (bs : List Byte) (es : List Event) : State :=
  { State.reset with
    status := 0x00000002, outLen := BitVec.ofNat 32 bs.length, outBuf := Memory.ofBytes 0 bs, events := es }

/-- What is observed after one step, if it answers a next state. -/
def observed (s : State) : Option Observation :=
  match step s with
  | .next t => some t.observe
  | .fault _ => none
  | .refused _ => none

/-- A state with its whole input written is ready. -/
theorem ready_written (bs : List Byte) (h : bs.length ≤ 512) : Ready (written bs) bs :=
  ⟨by simp [written]; omega, h, fun i _ => by simp [written]⟩

/-- A state with an output in place meets the invariant. -/
theorem inv_done (bs : List Byte) (es : List Event) (h : bs.length ≤ 1024) : Inv (done bs es) := by
  have hl : (BitVec.ofNat 32 bs.length).toNat = bs.length := by rw [BitVec.toNat_ofNat]; omega
  refine ⟨rfl, rfl, rfl, Memory.wf_ofBytes _ _,
    Memory.within_ofBytes _ _ _ (show 0 + bs.length ≤ 1024 by omega), ?_, ?_, ?_, ?_⟩
  · intro hb; exact absurd hb (by simp [done, State.busy, statusBusy])
  · intro _ i
    simp only [done, Memory.read_ofBytes_zero, hl]
    by_cases hi : i < bs.length <;> simp [hi]
  · intro _; exact Nat.zero_lt_succ _
  · intro hf; exact absurd hf (by simp [done, statusFail])

/-- A busy state meets the invariant. -/
theorem inv_launched (w : Word) (bs : List Byte) (k : Nat) (es : List Event) (h : bs.length ≤ 512) :
    Inv (launched w bs k es) := by
  refine ⟨rfl, Memory.wf_ofBytes _ _, Memory.within_ofBytes _ _ _ (show 0 + bs.length ≤ 512 by omega), rfl, rfl,
    fun _ => rfl, ?_, ?_, ?_⟩
  · intro hb; exact absurd hb (by simp [launched, State.busy, statusBusy])
  · intro hb; exact absurd hb (by simp [launched, State.busy, statusBusy])
  · intro hf; exact absurd hf (by simp [launched, statusFail])

/-! ### Well-formedness and configuration: an ill-formed term for each check -/

theorem test_wf_refuses_tag_16 : AlphRef.wf (.raw 16) = false := by decide
theorem test_wf_accepts_tag_15 : AlphRef.wf (.raw 15) = true := by decide
theorem test_wf_refuses_version_256 : (AsmLine.cmd .encv (.name .bitcoin) (some 256)).wf = false := by decide
theorem test_wf_accepts_version_255 : (AsmLine.cmd .encv (.name .bitcoin) (some 255)).wf = true := by decide
theorem test_wf_refuses_encv_without_version : (AsmLine.cmd .encv (.name .flickr) none).wf = false := by decide
theorem test_wf_refuses_version_on_enc : (AsmLine.cmd .enc (.name .bitcoin) (some 0)).wf = false := by decide
theorem test_wf_refuses_hint_256 : (AsmLine.cmd .decv (.raw 3) (some 256)).wf = false := by decide
theorem test_wf_refuses_read_of_2 : (Txn.memRead 0x0000 2).wf = false := by decide
theorem test_wf_refuses_write_of_8 : (Txn.memWrite 0x0000 8 0).wf = false := by decide
theorem test_wf_refuses_wide_byte : (Txn.memWrite 0x1000 1 256).wf = false := by decide
theorem test_config_default : configOk 512 1024 defaultTable = true := by decide +kernel
theorem test_config_refuses_inCap_0 : configOk 0 1024 defaultTable = false := by decide +kernel
theorem test_config_refuses_inCap_2963 : configOk 2963 4096 defaultTable = false := by decide +kernel
/-- OUT_MIN(512) = 714 (00_scope.md R10). -/
theorem test_config_refuses_outCap_713 :
    configOk 512 713 defaultTable = false ∧ configOk 512 714 defaultTable = true := by decide +kernel
theorem test_config_refuses_outCap_4097 : configOk 512 4097 defaultTable = false := by decide +kernel
theorem test_config_refuses_repeated_symbol :
    configOk 512 1024 { defaultTable with flickr := 0x32 :: flickrRow.tail } = false := by decide +kernel
theorem test_config_refuses_short_row :
    configOk 512 1024 { defaultTable with ripple := rippleRow.tail } = false := by decide +kernel

/-! ### Decoding: words written out bit by bit from format C, RSV VER ALPH OP (30_encoding.md R76, R77) -/

/-- OP 0001, ALPH 1001, VER 0: `ENC #9`. -/
theorem test_decode_enc : decodeCmd 0b00000000000000000000000010010001 = .ok (.enc 9 0) := by decide
/-- OP 0010, ALPH 0010, VER 0: `ENCC flickr`. -/
theorem test_decode_encc : decodeCmd 0b00000000000000000000000000100010 = .ok (.encc 2 0) := by decide
/-- OP 0011, ALPH 0000, VER 10000000: `ENCV bitcoin, 0x80`. -/
theorem test_decode_encv : decodeCmd 0b00000000000000001000000000000011 = .ok (.encv 0 0x80) := by decide
/-- OP 0101, ALPH 0011, VER 11111111: `DEC ripple` with an ignored VER. -/
theorem test_decode_dec : decodeCmd 0b00000000000000001111111100110101 = .ok (.dec 3 0xFF) := by decide
/-- OP 0110, ALPH 0001, VER 0: `DECC monero`. -/
theorem test_decode_decc : decodeCmd 0b00000000000000000000000000010110 = .ok (.decc 1 0) := by decide
/-- OP 0111, ALPH 0000, VER 00000101: `DECV bitcoin, 5`. -/
theorem test_decode_decv : decodeCmd 0b00000000000000000000010100000111 = .ok (.decv 0 5) := by decide
/-- The lowest RSV bit alone makes a word illegal, and OP 0100 and 1000 name no command (R83). -/
theorem test_decode_refuses :
    decodeCmd 0b00000000000000010000000000000001 = .error .reservedNotZero ∧
    decodeCmd 0b00000000000000000000000000000100 = .error .noSuchOp ∧
    decodeCmd 0b00000000000000000000000000001000 = .error .noSuchOp ∧
    decodeLanes [0x01, 0x00, 0x00] = .error .notOneWord := by decide
/-- The lanes of a register, bits 7:0 first (20_memory.md R54). -/
theorem test_lanes : lanes 0x00008003 = [0x03, 0x80, 0x00, 0x00] := by decide
/-- R86's examples from the text of the command. -/
theorem test_assemble :
    assemble (.cmd .encv (.name .bitcoin) (some 0x80)) = some 0x00008003 ∧
    assemble (.cmd .decc (.name .monero) none) = some 0x00000016 ∧
    assemble (.cmd .decv (.name .bitcoin) none) = some 0x00000007 ∧
    assemble (.cmd .enc (.raw 9) none) = some 0x00000091 ∧ assemble (.word 0) = some 0 := by decide

/-! ### One step per command, on the spec's vectors -/

/-- 95_test_vectors.md V3: 00 01 02 encodes to "15T", the corrected source example (C1). -/
theorem test_enc_V3_leading_zero :
    observed ((written [0x00, 0x01, 0x02]).withFetchWord 32 0x00000001) =
      some ⟨0x00000002, 3, 0x00, some [0x31, 0x35, 0x54]⟩ := by decide +kernel

/-- V4 on ripple, with a VER that ENC ignores (R83). -/
theorem test_enc_V4_ripple_ignores_VER :
    observed ((written [0x00, 0x00, 0x01]).withFetchWord 32 0x0000AB31) =
      some ⟨0x00000002, 3, 0x00, some [0x72, 0x72, 0x70]⟩ := by decide +kernel

/-- V31: the empty payload. -/
theorem test_encc_V31_empty :
    observed ((written []).withFetchWord 32 0x00000002) =
      some ⟨0x00000002, 6, 0x00, some [0x33, 0x51, 0x4a, 0x6d, 0x6e, 0x68]⟩ := by decide +kernel

/-- V39: "hello" on flickr. -/
theorem test_encc_V39_flickr :
    observed ((written [0x68, 0x65, 0x6c, 0x6c, 0x6f]).withFetchWord 32 0x00000022) =
      some ⟨0x00000002, 13, 0x00, some [0x32, 0x6b, 0x35, 0x62, 0x35, 0x59, 0x51, 0x53, 0x75, 0x67, 0x38, 0x75,
          0x54]⟩ := by decide +kernel

/-- V41: the published address. -/
theorem test_encv_V41_address :
    observed ((written [0x01, 0x09, 0x66, 0x77, 0x60, 0x06, 0x95, 0x3d, 0x55, 0x67, 0x43, 0x9e, 0x5e, 0x39, 0xf8,
        0x6a, 0x0d, 0x27, 0x3b, 0xee]).withFetchWord 32 0x00000003) =
      some ⟨0x00000002, 33, 0x00, some [0x31, 0x36, 0x55, 0x77, 0x4c, 0x4c, 0x39, 0x52, 0x69, 0x73, 0x63, 0x33,
          0x51, 0x66, 0x50, 0x71, 0x42, 0x55, 0x76, 0x4b, 0x6f, 0x66, 0x48, 0x6d, 0x42, 0x51, 0x37, 0x77, 0x4d,
          0x74, 0x6a, 0x76, 0x4d]⟩ := by decide +kernel

/-- V45: "hello" with version 0x80. -/
theorem test_encv_V45_version_0x80 :
    observed ((written [0x68, 0x65, 0x6c, 0x6c, 0x6f]).withFetchWord 32 0x00008003) =
      some ⟨0x00000002, 14, 0x00, some [0x38, 0x44, 0x52, 0x57, 0x69, 0x67, 0x64, 0x45, 0x74, 0x35, 0x68, 0x34,
          0x42, 0x4c]⟩ := by decide +kernel

/-- V22: "15T" decodes to 00 01 02. -/
theorem test_dec_V22_leading_zero :
    observed ((written [0x31, 0x35, 0x54]).withFetchWord 32 0x00000005) =
      some ⟨0x00000002, 3, 0x00, some [0x00, 0x01, 0x02]⟩ := by decide +kernel

/-- V30: a trailing newline is no symbol. -/
theorem test_dec_V30_trailing_newline :
    observed ((written [0x31, 0x35, 0x54, 0x0a]).withFetchWord 32 0x00000005) =
      some ⟨0x00000206, 0, 0x00, some []⟩ := by decide +kernel

/-- R176's example: "hello" comes back without its tag. -/
theorem test_decc_V49_hello :
    observed ((written [0x32, 0x4c, 0x35, 0x42, 0x35, 0x79, 0x71, 0x73, 0x56, 0x47, 0x38, 0x56,
        0x74]).withFetchWord 32 0x00000006) =
      some ⟨0x00000002, 5, 0x00, some [0x68, 0x65, 0x6c, 0x6c, 0x6f]⟩ := by decide +kernel

/-- R176's example: one symbol changed. -/
theorem test_decc_wrong_last_symbol :
    observed ((written [0x32, 0x4c, 0x35, 0x42, 0x35, 0x79, 0x71, 0x73, 0x56, 0x47, 0x38, 0x56,
        0x31]).withFetchWord 32 0x00000006) =
      some ⟨0x00000406, 0, 0x00, some []⟩ := by decide +kernel

/-- R177's example: the inverse of V41. -/
theorem test_decv_V57_address :
    observed ((written [0x31, 0x36, 0x55, 0x77, 0x4c, 0x4c, 0x39, 0x52, 0x69, 0x73, 0x63, 0x33, 0x51, 0x66, 0x50,
        0x71, 0x42, 0x55, 0x76, 0x4b, 0x6f, 0x66, 0x48, 0x6d, 0x42, 0x51, 0x37, 0x77, 0x4d, 0x74, 0x6a, 0x76,
        0x4d]).withFetchWord 32 0x00000007) =
      some ⟨0x00000002, 20, 0x00, some [0x01, 0x09, 0x66, 0x77, 0x60, 0x06, 0x95, 0x3d, 0x55, 0x67, 0x43, 0x9e,
          0x5e, 0x39, 0xf8, 0x6a, 0x0d, 0x27, 0x3b, 0xee]⟩ := by decide +kernel

/-- the inverse of V45: VER_OUT holds the version. -/
theorem test_decv_V60_version_0x80 :
    observed ((written [0x38, 0x44, 0x52, 0x57, 0x69, 0x67, 0x64, 0x45, 0x74, 0x35, 0x68, 0x34, 0x42,
        0x4c]).withFetchWord 32 0x00000007) =
      some ⟨0x00000002, 5, 0x80, some [0x68, 0x65, 0x6c, 0x6c, 0x6f]⟩ := by decide +kernel

/-! ### Tables, hash, bus -/

/-- R104: `ALPHABET[3][1]` = 0x70, `INVERSE[2][0x54]` = 51, `INVERSE[0][0x30]` = none. -/
theorem test_lookups :
    symbol rippleRow 1 = 0x70 ∧ inverse flickrRow 0x54 = some 51 ∧ inverse bitcoinRow 0x30 = none ∧
    lookup 3 = .ok .ripple ∧ lookup 4 = .error .invalidAlphabet := by decide +kernel

/-- R127: the tags of the empty payload, without a version and with version 0. -/
theorem test_tags :
    checksum [] none = [0x5d, 0xf6, 0xe0, 0xe2] ∧ checksum [] (some 0x00) = [0x14, 0x06, 0xe0, 0x58] := by
  decide +kernel

/-- R156: after byte 0x01 the array is [1], after byte 0x02 it is [26, 4]. -/
theorem test_encode_datapath : encodeArray [0x00, 0x01] = [1] ∧ encodeArray [0x00, 0x01, 0x02] = [26, 4] := by
  decide +kernel

/-- R57, R53: a misaligned register read, a byte read of a register and a word read of a buffer are ERROR. -/
theorem test_bus_errors :
    (busAccess State.reset (.memRead 0x0002 4)).1 = .error ∧ (busAccess State.reset (.memRead 0x0004 1)).1 = .error ∧
    (busAccess State.reset (.memRead 0x1000 4)).1 = .error ∧ (busAccess State.reset (.memWrite 0x2000 1 0)).1 = .error ∧
    (busAccess State.reset (.memRead 0x0014 4)).1 = .error := by decide +kernel

/-- An unspecified byte reads as a free value, and the next read draws another (10_state.md R28, R39). -/
theorem test_unspecified_byte :
    (busAccess State.reset (.memRead 0x1000 1)).1 = .data ((Config.unspecifiedByte 0).setWidth 32) ∧
    (busAccess (busAccess State.reset (.memRead 0x1000 1)).2 (.memRead 0x2000 1)).1 =
      .data ((Config.unspecifiedByte 1).setWidth 32) := ⟨rfl, rfl⟩

/-! ### Witnesses: for every statement with hypotheses, a state and operands that meet them all -/

/-- EncodeOfDecodeIsIdentity. -/
theorem witness_encodeOfDecode : decodeCmd 0x0000FFF7 = .ok (.decv 15 0xFF) := by decide

/-- DecoderRefusesExactlyReservedWords, second clause. -/
theorem witness_decoderReads : decodeCmd 0x0000FFF1 = .ok (.enc 15 0xFF) := by decide

/-- AssembledLineDecodesToItsCommand: a raw tag at its bound, a name, and both bounds of the version. -/
theorem witness_assembledLine :
    (AsmLine.cmd .encv (.raw 15) (some 255)).wf = true ∧ (AsmLine.cmd .decv (.name .ripple) (some 0)).wf = true ∧
    (AsmLine.cmd .enc (.raw 0) none).wf = true := by decide

/-- StepRunsTheDecodedCommand, both clauses. -/
theorem witness_stepRuns :
    (launched 0x00000001 [] 0 [.waitDone]).engineTurn = true ∧
    decodeCmd (launched 0x00000001 [] 0 [.waitDone]).cmd = .ok (.enc 0 0) ∧
    decodeTableWord 32 0x00008003 = some (.encv 0 0x80) := by decide

/-- IllegalWordCompletesWithIllegalCommand: RSV's lowest bit, OP 0100, OP 1111. -/
theorem witness_illegalWord :
    (launched 0x00010001 [] 0 []).engineTurn = true ∧
    (decodeCmd (launched 0x00010001 [] 0 []).cmd).toOption = none ∧
    (decodeCmd (launched 0x00000004 [] 0 []).cmd).toOption = none ∧
    (decodeCmd (launched 0x0000000F [] 0 []).cmd).toOption = none := by decide

/-- AllZeroWordStartsNoConversion. -/
theorem witness_allZero : (launched 0 [] 3 []).engineTurn = true ∧ (launched 0 [] 3 []).cmd = 0 := by decide

/-- ResetDuringCommandAbandonsIt: with one unit of busy time left, after a completed command, and right after reset. -/
theorem witness_resetDuring :
    ((launched 0x00000001 [] 1 [.rst, .dump]).busy = true → 0 < (launched 0x00000001 [] 1 [.rst, .dump]).busyLeft) ∧
    (launched 0x00000001 [] 1 [.rst, .dump]).events = .rst :: [.dump] ∧
    (launched 0x00000001 [] 1 [.rst, .dump]).busy = true ∧
    ((done [0x31] [.rst]).busy = true → 0 < (done [0x31] [.rst]).busyLeft) ∧ (done [0x31] [.rst]).events = .rst :: [] ∧
    (done [0x31] [.rst]).busy = false ∧ ({ State.reset with events := [.rst] } : State).busy = false := by decide

/-- EveryStepKeepsInvariant: a move of the outside world, and a completion step. -/
theorem witness_stepKeepsInv :
    Inv (done [0x31, 0x35] [.waitDone]) ∧ (∃ t, step (done [0x31, 0x35] [.waitDone]) = .next t) ∧
    Inv (launched 0x00000000 [] 0 []) ∧ (∃ t, step (launched 0x00000000 [] 0 []) = .next t) :=
  ⟨inv_done _ _ (by decide), ⟨_, rfl⟩, inv_launched _ _ _ _ (by decide), ⟨_, rfl⟩⟩

/-- CmdWriteIsAcceptance, both clauses, and WritesWhileBusyAreRefused. -/
theorem witness_idle_and_busy :
    State.reset.busy = false ∧ (done [] []).busy = false ∧ (launched 0x00000001 [] 1 []).busy = true := by decide

/-- ResultsPersistUntilAcceptanceOrReset: a write of IN_LEN is the next move of an idle block. -/
theorem witness_resultsPersist :
    (done [0x31] [.bus (.memWrite 0x0008 4 7)]).busy = false ∧
    (∃ t, step (done [0x31] [.bus (.memWrite 0x0008 4 7)]) = .next t) ∧
    (done [0x31] [.bus (.memWrite 0x0008 4 7)]).events.head? ≠ some .rst ∧
    (∀ n w, (done [0x31] [.bus (.memWrite 0x0008 4 7)]).events.head? ≠ some (.bus (.memWrite 0x0000 n w))) :=
  ⟨by decide, ⟨_, rfl⟩, by decide, by intro n w; simp [done]⟩

/-- EveryBusyCommandCompletes, with moves of the outside world still to come, an `rst` after the completion step among
them. -/
theorem witness_busyCompletes :
    (launched 0x00000001 [0x00, 0x01] 2 [.waitDone, .dump, .rst]).busy = true ∧
    InputWritten (launched 0x00000001 [0x00, 0x01] 2 [.waitDone, .dump, .rst]) ∧
    NoResetInFlight (launched 0x00000001 [0x00, 0x01] 2 [.waitDone, .dump, .rst]) := by
  refine ⟨by decide, fun _ i hi => ?_, fun k u hk hu => ?_⟩
  · have hi' : i < 2 := hi
    interval_cases i <;> rfl
  · have hk' : k < 2 := hk
    interval_cases k <;> injection hu with hu <;> subst hu <;> decide

/-- ErroredTransactionChangesNothing: a write of STATUS, a read of 2 bytes, a byte value of 256. -/
theorem witness_errored :
    (busAccess State.reset (.memWrite 0x0004 4 1)).1 = .error ∧ (busAccess State.reset (.memRead 0x0000 2)).1 = .error ∧
    (busAccess State.reset (.memWrite 0x1000 1 256)).1 = .error := by decide +kernel

/-- LegalTransactionsAreExactlyThese and InByteWriteReadsBack: the first and last element of either buffer, each with a
value where the clause asks for one. -/
theorem witness_legalTransactions :
    0 < State.reset.cfg.inCap ∧ 511 < State.reset.cfg.inCap ∧ 1023 < State.reset.cfg.outCap ∧
    Memory.read (written [0x41]).inBuf 0 = some 0x41 ∧
    Memory.read ({ written [] with inBuf := [(511, 0x42)] } : State).inBuf 511 = some 0x42 ∧
    Memory.read (done [0x43] []).outBuf 0 = some 0x43 ∧
    Memory.read ({ done [] [] with outBuf := [(1023, 0x44)] } : State).outBuf 1023 = some 0x44 ∧
    (done [0x43] []).busy = false := by decide +kernel

/-- The clauses of LegalTransactionsAreExactlyThese at the bounds of both windows. -/
theorem witness_windowBounds :
    (busAccess State.reset (.memRead 0x0FFF 1)).1 = .error ∧ (busAccess State.reset (.memRead 0x1200 1)).1 = .error ∧
    (busAccess State.reset (.memRead 0x1FFF 1)).1 = .error ∧ (busAccess State.reset (.memRead 0x2400 1)).1 = .error ∧
    (busAccess State.reset (.memWrite 0x11FF 1 255)).1 = .ok ∧ (busAccess State.reset (.memWrite 0x1200 1 255)).1 = .error := by
  decide +kernel

/-- ReadsWhileBusy, with a written byte at the first element. -/
theorem witness_readsWhileBusy :
    Inv (launched 0x00000006 [0x32] 4 []) ∧ (launched 0x00000006 [0x32] 4 []).busy = true ∧
    Memory.read (launched 0x00000006 [0x32] 4 []).inBuf 0 = some 0x32 ∧
    0 < (launched 0x00000006 [0x32] 4 []).cfg.inCap ∧ 1023 < (launched 0x00000006 [0x32] 4 []).cfg.outCap :=
  ⟨inv_launched _ _ _ _ (by decide), by decide, by decide, by decide +kernel, by decide +kernel⟩

/-- LoadPlacesTheInput, on the empty input and on two bytes. -/
theorem witness_load :
    ({ State.reset with events := hostLoad [] ++ [.waitDone] } : State).busy = false ∧
    ([] : List Byte).length ≤ State.reset.cfg.inCap ∧ [(0x31 : Byte), 0x35].length ≤ State.reset.cfg.inCap ∧
    ({ State.reset with events := hostLoad [0x31, 0x35] ++ [.dump] } : State).events =
      hostLoad [0x31, 0x35] ++ [.dump] := by decide +kernel

/-- WaitPollsUntilDone, before and after DONE is set. -/
theorem witness_wait :
    (launched 0x00000001 [] 1 [.waitDone]).engineTurn = false ∧
    (launched 0x00000001 [] 1 [.waitDone]).events = .waitDone :: [] ∧
    statusDone (launched 0x00000001 [] 1 [.waitDone]).status = false ∧
    (done [] [.waitDone, .dump]).engineTurn = false ∧ (done [] [.waitDone, .dump]).events = .waitDone :: [.dump] ∧
    statusDone (done [] [.waitDone, .dump]).status = true := by decide

/-- DumpReadsTheResult, on an empty and on a non-empty result. -/
theorem witness_dump :
    Inv (done [] [.dump]) ∧ (done [] [.dump]).busy = false ∧ (done [] [.dump]).events = .dump :: [] ∧
    Inv (done [0x31, 0x35] [.dump]) ∧ (done [0x31, 0x35] [.dump]).busy = false ∧
    (done [0x31, 0x35] [.dump]).events = .dump :: [] :=
  ⟨inv_done _ _ (by decide), rfl, rfl, inv_done _ _ (by decide), rfl, rfl⟩

/-- EncCompletes, EnccCompletes and EncvCompletes: the empty input, a full buffer, a few bytes. -/
theorem witness_encCompletes :
    Ready (written []) [] ∧ Ready (written (List.replicate 512 0xFF)) (List.replicate 512 0xFF) ∧
    Ready (written [0x00, 0x01]) [0x00, 0x01] :=
  ⟨ready_written _ (by decide), ready_written _ (Nat.le_of_eq List.length_replicate), ready_written _ (by decide)⟩

/-- DecCompletes: "15T" on bitcoin. -/
theorem witness_decCompletes :
    Ready (written [0x31, 0x35, 0x54]) [0x31, 0x35, 0x54] ∧
    ∀ c ∈ [(0x31 : Byte), 0x35, 0x54], c ∈ (written [0x31, 0x35, 0x54]).cfg.alphabets.row .bitcoin :=
  ⟨ready_written _ (by decide), by decide +kernel⟩

/-- DeccCompletes: "3QJmnh", the text of the empty payload (95_test_vectors.md V31). -/
theorem witness_deccCompletes :
    Ready (written [0x33, 0x51, 0x4a, 0x6d, 0x6e, 0x68]) [0x33, 0x51, 0x4a, 0x6d, 0x6e, 0x68] ∧
    fromBase58 (State.reset.cfg.alphabets.row .bitcoin) [0x33, 0x51, 0x4a, 0x6d, 0x6e, 0x68] =
      some ([] ++ [0x5d, 0xf6, 0xe0, 0xe2]) ∧
    [(0x5d : Byte), 0xf6, 0xe0, 0xe2].length = 4 ∧ [0x5d, 0xf6, 0xe0, 0xe2] = (sha256 (sha256 [])).take 4 :=
  ⟨ready_written _ (by decide), by decide +kernel, rfl, by decide +kernel⟩

/-- DecvCompletes: "1Wh4bh", version 0 and the empty payload (V42). -/
theorem witness_decvCompletes :
    Ready (written [0x31, 0x57, 0x68, 0x34, 0x62, 0x68]) [0x31, 0x57, 0x68, 0x34, 0x62, 0x68] ∧
    fromBase58 (State.reset.cfg.alphabets.row .bitcoin) [0x31, 0x57, 0x68, 0x34, 0x62, 0x68] =
      some (0x00 :: [] ++ [0x14, 0x06, 0xe0, 0x58]) ∧
    [(0x14 : Byte), 0x06, 0xe0, 0x58].length = 4 ∧ [0x14, 0x06, 0xe0, 0x58] = (sha256 (sha256 (0x00 :: []))).take 4 :=
  ⟨ready_written _ (by decide), by decide +kernel, rfl, by decide +kernel⟩

/-- BadTagCompletesWithInvalidAlphabet, at both bounds. -/
theorem witness_badTag : 4 ≤ (Instr.enc 4 0).alph.toNat ∧ 4 ≤ (Instr.decv 15 0).alph.toNat := by decide

/-- LongInputCompletesWithLengthError: one more than IN_CAP, and the largest IN_LEN. -/
theorem witness_longInput :
    (Instr.decc 3 0).alph.toNat ≤ 3 ∧
    ({ State.reset with inLen := 513 } : State).cfg.inCap < ({ State.reset with inLen := 513 } : State).inLen.toNat ∧
    ({ State.reset with inLen := 0xFFFFFFFF } : State).cfg.inCap <
      ({ State.reset with inLen := 0xFFFFFFFF } : State).inLen.toNat := by decide +kernel

/-- BadByteCompletesWithInvalidCharacter: "1l". -/
theorem witness_badByte :
    Ready (written [0x31, 0x6c]) [0x31, 0x6c] ∧ (0x6c : Byte) ∈ [(0x31 : Byte), 0x6c] ∧
    (0x6c : Byte) ∉ (written [0x31, 0x6c]).cfg.alphabets.row .bitcoin :=
  ⟨ready_written _ (by decide), by decide, by decide +kernel⟩

/-- ShortDecodingCompletesWithTooShort: texts of zero-digit symbols that decode to 3, 4 and 5 bytes, on either side of
both thresholds. -/
theorem witness_short :
    Ready (written (List.replicate 3 0x31)) (List.replicate 3 0x31) ∧
    fromBase58 (State.reset.cfg.alphabets.row .bitcoin) (List.replicate 3 0x31) = some [0, 0, 0] ∧
    Ready (written (List.replicate 4 0x31)) (List.replicate 4 0x31) ∧
    fromBase58 (State.reset.cfg.alphabets.row .bitcoin) (List.replicate 4 0x31) = some [0, 0, 0, 0] ∧
    Ready (written (List.replicate 5 0x31)) (List.replicate 5 0x31) ∧
    fromBase58 (State.reset.cfg.alphabets.row .bitcoin) (List.replicate 5 0x31) = some [0, 0, 0, 0, 0] :=
  ⟨ready_written _ (by decide), by decide +kernel, ready_written _ (by decide), by decide +kernel,
    ready_written _ (by decide), by decide +kernel⟩

/-- WrongTagCompletesWithChecksumMismatch, clauses of a wrong tag: "1111" and "11111", whose four last bytes are zero.
The clauses of a right tag are met by witness_deccCompletes and witness_decvCompletes. -/
theorem witness_wrongTag :
    Ready (written (List.replicate 4 0x31)) (List.replicate 4 0x31) ∧ [(0 : Byte), 0, 0, 0].length = 4 ∧
    fromBase58 (State.reset.cfg.alphabets.row .bitcoin) (List.replicate 4 0x31) = some ([] ++ [0, 0, 0, 0]) ∧
    (∃ k, k < 4 ∧ [(0 : Byte), 0, 0, 0][k]? ≠ (sha256 (sha256 []))[k]?) ∧
    Ready (written (List.replicate 5 0x31)) (List.replicate 5 0x31) ∧
    fromBase58 (State.reset.cfg.alphabets.row .bitcoin) (List.replicate 5 0x31) = some (0 :: [] ++ [0, 0, 0, 0]) ∧
    (∃ k, k < 4 ∧ [(0 : Byte), 0, 0, 0][k]? ≠ (sha256 (sha256 (0 :: [])))[k]?) :=
  ⟨ready_written _ (by decide), rfl, by decide +kernel, ⟨0, by decide, by decide +kernel⟩,
    ready_written _ (by decide), by decide +kernel, ⟨0, by decide, by decide +kernel⟩⟩

/-- FirstErrorInPriorityIsReported: `DECC bitcoin` on "1l". -/
theorem witness_priority :
    (launched 0x00000006 [0x31, 0x6c] 0 []).engineTurn = true ∧
    (∀ a : Alphabet, a.tag.toNat = (launched 0x00000006 [0x31, 0x6c] 0 []).cmd.toNat / 16 % 16 →
      bitcoinRow = (launched 0x00000006 [0x31, 0x6c] 0 []).cfg.alphabets.row a) ∧
    ((launched 0x00000006 [0x31, 0x6c] 0 []).inLen.toNat ≤ (launched 0x00000006 [0x31, 0x6c] 0 []).cfg.inCap →
      Ready (launched 0x00000006 [0x31, 0x6c] 0 []) [0x31, 0x6c]) := by
  refine ⟨by decide, fun a h => ?_, fun _ => ready_written [0x31, 0x6c] (by decide)⟩
  cases a
  · rfl
  all_goals exact absurd h (by decide)

/-- UnwrittenInputIsRefused: one byte asked for, none written; and the last element. -/
theorem witness_unwritten :
    Memory.read ({ State.reset with inLen := 1 } : State).inBuf 0 = none ∧
    0 < ({ State.reset with inLen := 1 } : State).cfg.inCap ∧ (Instr.enc 3 0).alph.toNat ≤ 3 ∧
    ({ State.reset with inLen := 1 } : State).inLen.toNat ≤ ({ State.reset with inLen := 1 } : State).cfg.inCap ∧
    0 < ({ State.reset with inLen := 1 } : State).inLen.toNat ∧
    Memory.read State.reset.inBuf 511 = none ∧ 511 < State.reset.cfg.inCap := by decide +kernel

/-- FailedCommandsDifferOnlyInStatus: a bad tag and an invalid character in the same state. -/
theorem witness_failedCommands :
    ∃ t u, exec (.enc 4 0) (written [0x30]) = .next t ∧ exec (.dec 0 0) (written [0x30]) = .next u ∧
      statusFail t.status = true ∧ statusFail u.status = true :=
  ⟨(written [0x30]).completeErr .invalidAlphabet, (written [0x30]).completeErr .invalidCharacter, rfl,
    exec_ready (ready_written [0x30] (by decide)) .bitcoin (.dec 0 0) rfl, by decide, by decide⟩

/-- FailedCommandsDifferOnlyInStatus, its second clause: the word 0 beside a bad tag. -/
theorem witness_failedIllegalWord :
    (launched 0 [0x30] 0 []).engineTurn = true ∧ (decodeCmd (launched 0 [0x30] 0 []).cmd).toOption = none ∧
      (∃ t, step (launched 0 [0x30] 0 []) = .next t) ∧
      ∃ u, exec (.enc 4 0) (launched 0 [0x30] 0 []) = .next u ∧ statusFail u.status = true :=
  ⟨by decide, by decide, ⟨(launched 0 [0x30] 0 []).completeErr .illegalCommand, rfl⟩,
    (launched 0 [0x30] 0 []).completeErr .invalidAlphabet, rfl, by decide⟩

/-- CommandsChangeOnlyTheirResult, ResultsFitTheOutBuffer, and the command clause of DecodedLengthIsBounded. -/
theorem witness_commandRuns :
    (∃ t, exec (.enc 0 0) (written [0x00]) = .next t) ∧ (∃ t, exec (.dec 0 0) (written [0x31]) = .next t) ∧
    5 ≤ (Instr.dec 0 0).op.toNat :=
  ⟨⟨_, exec_ready (ready_written [0x00] (by decide)) .bitcoin (.enc 0 0) rfl⟩,
    ⟨_, exec_ready (ready_written [0x31] (by decide)) .bitcoin (.dec 0 0) rfl⟩, by decide⟩

/-- ResultDependsOnlyOnTheInput: two states that differ in STATUS, OUT and OUT_LEN. -/
theorem witness_resultDepends :
    (written [0x31]).cfg = (launched 0x00000005 [0x31] 3 []).cfg ∧
    (written [0x31]).inLen = (launched 0x00000005 [0x31] 3 []).inLen ∧
    (written [0x31]).status ≠ (launched 0x00000005 [0x31] 3 []).status ∧
    (∀ k, k < (written [0x31]).inLen.toNat →
      Memory.read (written [0x31]).inBuf k = Memory.read (launched 0x00000005 [0x31] 3 []).inBuf k) :=
  ⟨rfl, rfl, by decide, fun _ _ => rfl⟩

/-- VersionFieldIsIgnoredButByEncv: `DECV bitcoin, 5` and `DECV bitcoin, 255`. -/
theorem witness_versionIgnored :
    (launched 0x00000507 [] 0 []).engineTurn = true ∧ (launched 0x00000507 [] 0 []).cmd = 0x00000507 ∧
    (0x00000507 : Word).toNat % 16 ≠ 3 ∧ (0x0000FF07 : Word).toNat % 256 = (0x00000507 : Word).toNat % 256 ∧
    (0x0000FF07 : Word).toNat / 2 ^ 16 = (0x00000507 : Word).toNat / 2 ^ 16 ∧
    ∃ t, step (launched 0x00000507 [] 0 []) = .next t :=
  ⟨by decide, rfl, by decide, by decide, by decide,
    ⟨_, exec_ready (s := launched 0x00000507 [] 0 []) (ready_written [] (by decide)) .bitcoin (.decv 0 5) rfl⟩⟩

/-- The statements about the converter: every row of the spec is a legal row. -/
theorem witness_rows :
    rowOk bitcoinRow = true ∧ rowOk moneroRow = true ∧ rowOk flickrRow = true ∧ rowOk rippleRow = true := by
  decide +kernel

/-- EncodingADecodingGivesItBack, DecodedLengthIsBounded, DecodingHasTheValueOfTheText: "15T". -/
theorem witness_text :
    (∀ c ∈ [(0x31 : Byte), 0x35, 0x54], c ∈ bitcoinRow) ∧
    fromBase58 bitcoinRow [0x31, 0x35, 0x54] = some [0x00, 0x01, 0x02] := by decide +kernel

/-- LeadingZerosPassThrough: the empty sequence, and one that begins with another byte than zero. -/
theorem witness_leadingZeros :
    ([] : List Byte).head? ≠ some 0x00 ∧ [(0x01 : Byte), 0x00].head? ≠ some 0x00 := by decide

/-- DecodeDatapathComputesTheBytes: no digits, and digits at both bounds. -/
theorem witness_decodeDatapath :
    (∀ d ∈ ([] : List Nat), d < 58) ∧ ([] : List Nat).head? ≠ some 0 ∧
    (∀ d ∈ [57, 0], d < 58) ∧ [57, 0].head? ≠ some 0 := by decide

/-- DatapathCarryFitsFourteenBits, at the largest digit and byte. -/
theorem witness_carry : (∀ d ∈ [57, 57], d < 58) ∧ (∀ x ∈ [255, 255], x < 256) ∧ 57 < 58 := by decide

/-- PaddedMessageIsWholeBlocks, second clause, and ScheduleFollowsTheRecurrence. -/
theorem witness_blocks :
    (List.replicate 32 (0xAB : Byte)).length = 32 ∧ (List.replicate 64 (0xAB : Byte)).length = 64 ∧
    0 < 16 ∧ 15 < 16 ∧ 16 ≤ 16 ∧ 16 < 64 ∧ 16 ≤ 63 ∧ 63 < 64 := by simp

/-- VersionedEncodeIsChecksummedEncode. -/
theorem witness_versionedEncode :
    (written [0x61]).cfg = (written [0x05, 0x61]).cfg ∧ Ready (written [0x61]) [0x61] ∧
    Ready (written [0x05, 0x61]) (0x05 :: [0x61]) :=
  ⟨rfl, ready_written _ (by decide), ready_written _ (by decide)⟩

/-- ChecksummedAndVersionedTextsCross: the three texts, of version 0 and no payload, of the payload [0], of none. -/
theorem witness_textsCross :
    Ready (written (toBase58 bitcoinRow (0x00 :: [] ++ checksum [] (some 0x00))))
      (toBase58 ((written (toBase58 bitcoinRow (0x00 :: [] ++ checksum [] (some 0x00)))).cfg.alphabets.row .bitcoin)
        (0x00 :: [] ++ checksum [] (some 0x00))) ∧
    Ready (written (toBase58 bitcoinRow (0x00 :: [] ++ checksum (0x00 :: []) none)))
      (toBase58 ((written (toBase58 bitcoinRow (0x00 :: [] ++ checksum (0x00 :: []) none))).cfg.alphabets.row .bitcoin)
        (0x00 :: [] ++ checksum (0x00 :: []) none)) ∧
    Ready (written (toBase58 bitcoinRow (checksum [] none)))
      (toBase58 ((written (toBase58 bitcoinRow (checksum [] none))).cfg.alphabets.row .bitcoin) (checksum [] none)) :=
  ⟨ready_written _ (by decide +kernel), ready_written _ (by decide +kernel), ready_written _ (by decide +kernel)⟩

/-- SuccessMeansMatchingTag, both clauses. -/
theorem witness_success :
    (∃ t, Ready (written [0x33, 0x51, 0x4a, 0x6d, 0x6e, 0x68]) [0x33, 0x51, 0x4a, 0x6d, 0x6e, 0x68] ∧
      exec (.decc 0 0) (written [0x33, 0x51, 0x4a, 0x6d, 0x6e, 0x68]) = .next t ∧ t.status = 0x00000002) ∧
    (∃ t, Ready (written [0x31, 0x57, 0x68, 0x34, 0x62, 0x68]) [0x31, 0x57, 0x68, 0x34, 0x62, 0x68] ∧
      exec (.decv 0 0) (written [0x31, 0x57, 0x68, 0x34, 0x62, 0x68]) = .next t ∧ t.status = 0x00000002) :=
  ⟨⟨_, ready_written _ (by decide), exec_ready (ready_written _ (by decide)) .bitcoin (.decc 0 0) rfl,
      by decide +kernel⟩,
    ⟨_, ready_written _ (by decide), exec_ready (ready_written _ (by decide)) .bitcoin (.decv 0 0) rfl,
      by decide +kernel⟩⟩

/-- The state t after a command that MachineRoundTrips speaks of, and u with t's output copied to its input. -/
def copied (t : State) : State := { t with inLen := t.outLen, inBuf := t.outBuf }

theorem copied_copies (t : State) : CopiedOutToIn t (copied t) := ⟨rfl, rfl, fun _ _ => rfl⟩

/-- MachineRoundTrips: ENC, ENCC and ENCV of the empty sequence, each output copied, and the bound on its length. -/
theorem witness_roundTrips :
    Ready (written []) [] ∧
    (∃ t, exec (.enc 0 0) (written []) = .next t ∧ CopiedOutToIn t (copied t) ∧ t.outLen.toNat ≤ 512) ∧
    (∃ t, exec (.encc 0 0) (written []) = .next t ∧ CopiedOutToIn t (copied t) ∧ t.outLen.toNat ≤ 512) ∧
    (∃ t, exec (.encv 0 5) (written []) = .next t ∧ CopiedOutToIn t (copied t) ∧ t.outLen.toNat ≤ 512) ∧
    ([] : List Byte).length + 5 ≤ ((written []).cfg.inCap - 1) * 100 / 138 :=
  ⟨ready_written _ (by decide),
    ⟨_, exec_ready (ready_written _ (by decide)) .bitcoin (.enc 0 0) rfl, copied_copies _, by decide +kernel⟩,
    ⟨_, exec_ready (ready_written _ (by decide)) .bitcoin (.encc 0 0) rfl, copied_copies _, by decide +kernel⟩,
    ⟨_, exec_ready (ready_written _ (by decide)) .bitcoin (.encv 0 5) rfl, copied_copies _, by decide +kernel⟩,
    by decide +kernel⟩

end Sys2Proof.Tests
end

/-! SUPPORT. The proofs of the statements on the state (10_state.md), with the lemmas they need: the lengths of
results, what decides a command's result, and what keeps the invariant. -/

namespace Sys2Proof.Machine

/-! ### Lengths of results (R143, R149, R163) -/

/-- log58(256) < 1.38: the root of R143 is 256^50 ≤ 58^69. -/
theorem pow_256_lt_pow_58 (n : Nat) : 256 ^ n < 58 ^ (n * 138 / 100 + 1) := by
  have hroot : (256 : Nat) ^ 50 ≤ 58 ^ 69 := by norm_num
  have h50 : (256 ^ n) ^ 50 < (58 ^ (n * 138 / 100 + 1)) ^ 50 := calc
    (256 ^ n) ^ 50 = (256 ^ 50) ^ n := by rw [← pow_mul, ← pow_mul, mul_comm]
    _ ≤ (58 ^ 69) ^ n := Nat.pow_le_pow_left hroot n
    _ = 58 ^ (69 * n) := (pow_mul ..).symm
    _ < 58 ^ ((n * 138 / 100 + 1) * 50) := Nat.pow_lt_pow_right (by norm_num) (by omega)
    _ = (58 ^ (n * 138 / 100 + 1)) ^ 50 := pow_mul ..
  exact lt_of_pow_lt_pow_left₀ 50 (Nat.zero_le _) h50

/-- Leading zero bytes do not change the value (R138). -/
theorem beNat_drop_leadingZeros (b : List Byte) : beNat (b.drop (leadingCount 0x00 b)) = beNat b := by
  induction b with
  | nil => rfl
  | cons c b ih =>
    rw [leadingCount_cons]
    split
    next hc => subst hc; rw [List.drop_succ_cons, ih]; rfl
    next => rfl

/-- The output length bound of the encode direction (R143). -/
theorem length_toBase58_le (row b : List Byte) : (toBase58 row b).length ≤ b.length * 138 / 100 + 1 := by
  have hz := leadingCount_le 0x00 b
  have hv : beNat b < 256 ^ (b.length - leadingCount 0x00 b) := by
    simpa only [beNat_drop_leadingZeros, List.length_drop] using beNat_lt (b.drop (leadingCount 0x00 b))
  have hd := length_digitsLe_le (by norm_num) _ _ (hv.trans (pow_256_lt_pow_58 _))
  simp only [toBase58, digits58Be, List.length_append, List.length_replicate, List.length_map, List.length_reverse]
  omega

/-- The digits of a text are one per symbol and below 58 (R145). -/
theorem textDigits_some {row t : List Byte} {ds : List Nat} (hrow : rowOk row = true)
    (h : textDigits row t = some ds) : ds.length = t.length ∧ ∀ d ∈ ds, d < 58 := by
  rw [textDigits_eq] at h
  split at h
  next hmem =>
    obtain rfl := Option.some.inj h
    refine ⟨List.length_map .., fun d hd => ?_⟩
    obtain ⟨c, hc, rfl⟩ := List.mem_map.1 hd
    exact ((rowOk_iff row).1 hrow).1 ▸ List.idxOf_lt_length_of_mem (hmem c hc)
  next => cases h

/-- The output length bound of the decode direction (R149): 58 ≤ 256. -/
theorem length_fromBase58_le {row t d : List Byte} (hrow : rowOk row = true) (h : fromBase58 row t = some d) :
    d.length ≤ t.length := by
  rw [fromBase58] at h
  split at h
  next => cases h
  next ds hds =>
    obtain rfl := Option.some.inj h
    obtain ⟨hlen, hlt⟩ := textDigits_some hrow hds
    have hz := leadingCount_le (zeroSymbol row) t
    have hv := foldDigits_lt (ds.drop (leadingCount (zeroSymbol row) t)) fun d hd => hlt d (List.mem_of_mem_drop hd)
    have hb := length_digitsLe_le (by norm_num) _ _ (hv.trans_le (Nat.pow_le_pow_left (by norm_num : 58 ≤ 256) _))
    simp only [beBytesMin, List.length_append, List.length_replicate, List.length_map, List.length_reverse,
      List.length_drop] at hb ⊢
    omega

/-- DEC answers all decoded bytes (R175). -/
theorem length_decResult_le {row input out : List Byte} {ver : Byte} (hrow : rowOk row = true)
    (h : decResult row input = .ok out ver) : out.length ≤ input.length := by
  rw [decResult] at h
  split at h
  next => cases h
  next d hd =>
    obtain ⟨rfl, -⟩ := Result.ok.inj h
    exact length_fromBase58_le hrow hd

/-- DECC answers the decoded bytes without the tag (R176). -/
theorem length_deccResult_le {row input out : List Byte} {ver : Byte} (hrow : rowOk row = true)
    (h : deccResult row input = .ok out ver) : out.length ≤ input.length := by
  rw [deccResult] at h
  split at h
  next => cases h
  next d hd =>
    split_ifs at h
    obtain ⟨rfl, -⟩ := Result.ok.inj h
    exact (List.length_take_le' ..).trans (length_fromBase58_le hrow hd)

/-- DECV answers the decoded bytes without the version and the tag (R177). -/
theorem length_decvResult_le {row input out : List Byte} {ver : Byte} (hrow : rowOk row = true)
    (h : decvResult row input = .ok out ver) : out.length ≤ input.length := by
  rw [decvResult] at h
  split at h
  next => cases h
  next => cases h
  next version rest hd =>
    split_ifs at h
    obtain ⟨rfl, -⟩ := Result.ok.inj h
    exact (List.length_take_le' ..).trans ((Nat.le_succ _).trans (length_fromBase58_le hrow hd))

/-- No command answers more than OUT_MIN bytes for its input (R163). -/
theorem length_ownPart_le {row input out : List Byte} {ver : Byte} (i : Instr) (hrow : rowOk row = true)
    (h : ownPart i row input = .ok out ver) : out.length ≤ outMin input.length := by
  have hencode : ∀ b : List Byte, b.length ≤ input.length + 5 → (toBase58 row b).length ≤ outMin input.length := by
    intro b hb
    have := length_toBase58_le row b
    rw [outMin]; omega
  have hdecode : out.length ≤ input.length → out.length ≤ outMin input.length := by
    rw [outMin]; omega
  cases i with
  | enc _ _ => obtain ⟨rfl, -⟩ := Result.ok.inj h; exact hencode _ (by omega)
  | encc _ _ => obtain ⟨rfl, -⟩ := Result.ok.inj h; exact hencode _ (by simp)
  | encv _ _ => obtain ⟨rfl, -⟩ := Result.ok.inj h; exact hencode _ (by simp)
  | dec _ _ => exact hdecode (length_decResult_le hrow h)
  | decc _ _ => exact hdecode (length_deccResult_le hrow h)
  | decv _ _ => exact hdecode (length_decvResult_le hrow h)

theorem outMin_mono {m n : Nat} (h : m ≤ n) : outMin m ≤ outMin n := by
  simp only [outMin]; omega

/-- What a command evaluates to fits the OUT buffer (R163). -/
theorem length_evaluate_le {cfg : Config} {inLen : Word} {inBuf : Memory} {alph : BitVec 4} {i : Instr}
    {out : List Byte} {ver : Byte} (h : evaluate cfg inLen inBuf alph (ownPart i) = some (.ok out ver)) :
    out.length ≤ cfg.outCap := by
  rcases evaluate_cases cfg inLen inBuf alph (ownPart i) with
    ⟨-, e⟩ | ⟨-, -, e⟩ | ⟨-, -, -, e⟩ | ⟨a, input, -, hcap, -, hlen, e⟩
  · rw [e] at h; cases h
  · rw [e] at h; cases h
  · rw [e] at h; cases h
  · rw [e] at h
    calc out.length ≤ outMin input.length := length_ownPart_le i (cfg.row_ok a) (Option.some.inj h)
      _ ≤ outMin cfg.inCap := outMin_mono (hlen ▸ hcap)
      _ ≤ cfg.outCap := cfg.outMin_le

/-! ### What decides a command's result (R35, R39) -/

/-- A launch is refused exactly when it passes its prechecks and covers an unwritten byte of IN (R39). -/
theorem evaluate_eq_none_iff (cfg : Config) (inLen : Word) (inBuf : Memory) (alph : BitVec 4)
    (body : List Byte → List Byte → Result) :
    evaluate cfg inLen inBuf alph body = none ↔
      alph.toNat ≤ 3 ∧ inLen.toNat ≤ cfg.inCap ∧ ∃ k, k < inLen.toNat ∧ Memory.read inBuf k = none := by
  have hin : inputBytes inLen inBuf = none ↔ ∃ k, k < inLen.toNat ∧ Memory.read inBuf k = none := by
    simpa [inputBytes] using Memory.readRange_eq_none inBuf 0 inLen.toNat
  rw [← hin]
  rcases evaluate_cases cfg inLen inBuf alph body with
    ⟨ht, e⟩ | ⟨-, hcap, e⟩ | ⟨ht, hcap, hnone, e⟩ | ⟨a, input, -, -, hsome, -, e⟩
  · simp [e]; omega
  · simp [e]; omega
  · simp [e, ht, hcap, hnone]
  · simp [e, hsome]

theorem inLen_le_of_precheck_ok {cfg : Config} {inLen : Word} {alph : BitVec 4} {a : Alphabet}
    (h : precheck cfg inLen alph = .ok a) : inLen.toNat ≤ cfg.inCap := by
  rw [precheck] at h
  split at h
  next => cases h
  next =>
    split at h
    next => cases h
    next hcap => omega

/-- A command reads nothing of IN but its input, and that only when the input lies inside the buffer (R35). -/
theorem evaluate_congr {cfg : Config} {inLen : Word} {inBuf inBuf' : Memory}
    (h : inLen.toNat ≤ cfg.inCap → ∀ k, k < inLen.toNat → Memory.read inBuf k = Memory.read inBuf' k)
    (alph : BitVec 4) (body : List Byte → List Byte → Result) :
    evaluate cfg inLen inBuf alph body = evaluate cfg inLen inBuf' alph body := by
  simp only [evaluate]
  cases hp : precheck cfg inLen alph with
  | error e => rfl
  | ok a =>
    have hin : inputBytes inLen inBuf = inputBytes inLen inBuf' :=
      Memory.readRange_congr fun k hk => by simpa using h (inLen_le_of_precheck_ok hp) k hk
    simp only [hin]

/-- What is observed after a completion step depends on the result alone (R196, R197). -/
theorem observe_complete (s s' : State) (r : Result) : (s.complete r).observe = (s'.complete r).observe := by
  cases r <;> rfl

/-! ### Moves of the outside world -/

/-- Everything a transaction can do to the state (R53): draw free values, be an acceptance, or store IN_LEN or one
byte of IN. -/
theorem busAccess_state (s : State) (t : Txn) :
    (∃ n, (busAccess s t).2 = { s with draws := n }) ∨
    (∃ v, t = .memWrite 0x0000 4 v ∧ (busAccess s t).2 = s.accept v) ∨
    (∃ v, (busAccess s t).2 = { s with inLen := v }) ∨
    (∃ i b, i < s.cfg.inCap ∧ (busAccess s t).2 = { s with inBuf := Memory.write s.inBuf i b }) := by
  cases t with
  | memRead a n =>
    rcases busRead_state s a n with h | h
    · exact .inl ⟨s.draws, h⟩
    · exact .inl ⟨s.draws + 1, h⟩
  | memWrite a n v =>
    rcases busWrite_cases s a n v with e | ⟨-, rfl, rfl, e⟩ | ⟨-, -, -, e⟩ | ⟨-, -, -, i, hi, -, e⟩
    · exact .inl ⟨s.draws, by rw [busAccess, e]⟩
    · exact .inr (.inl ⟨v, rfl, by rw [busAccess, e]⟩)
    · exact .inr (.inr (.inl ⟨v, by rw [busAccess, e]⟩))
    · exact .inr (.inr (.inr ⟨i, v.setWidth 8, hi, by rw [busAccess, e]⟩))

/-- Everything a move of the outside world can do: `rst`, or one transaction, a bus move's own or a read, beside
which only the list of moves and the responses change (R63, R87). -/
theorem hostMove_cases (s : State) (e : Event) :
    (e = .rst ∧ hostMove s e = s.applyReset) ∨
    (∃ t es rs, (e = .bus t ∨ ∃ a n, t = .memRead a n) ∧
      hostMove s e = { (busAccess s t).2 with events := es, responses := rs }) := by
  cases e with
  | bus t => exact .inr ⟨t, _, _, .inl rfl, rfl⟩
  | waitDone =>
    refine .inr ⟨statusPoll, ?_⟩
    simp only [hostMove]
    split
    · exact ⟨_, _, .inr ⟨_, _, rfl⟩, rfl⟩
    · exact ⟨_, _, .inr ⟨_, _, rfl⟩, rfl⟩
  | dump => exact .inr ⟨_, _, _, .inr ⟨_, _, rfl⟩, rfl⟩
  | rst => exact .inl ⟨rfl, rfl⟩

/-! ### The invariant -/

/-- The invariant reads neither CMD, IN_LEN nor any of the model's own fields but the configuration. -/
theorem Inv.of_sameBuffers {s : State} (h : Inv s) (cmd inLen : Word) (es : List Event) (rs : List Response)
    (left n : Nat) :
    Inv { s with cmd := cmd, inLen := inLen, events := es, responses := rs, busyLeft := left, draws := n } :=
  ⟨h.status, h.inWf, h.inWithin, h.outWf, h.outWithin, h.busyOut, h.idleOut, h.idleVer, h.failed⟩

/-- Reset satisfies the invariant (R37). -/
theorem inv_resetOf (c : Config) : Inv (State.resetOf c) where
  status := rfl
  inWf := rfl
  inWithin := rfl
  outWf := rfl
  outWithin := rfl
  busyOut _ := rfl
  idleOut _ i := by simp [State.resetOf]
  idleVer _ := by simp [State.resetOf]
  failed _ := ⟨rfl, rfl⟩

/-- `rst` keeps the invariant, whatever the state (R215, R216). -/
theorem inv_applyReset (s : State) : Inv s.applyReset := (inv_resetOf s.cfg).of_sameBuffers ..

/-- Acceptance keeps the invariant (R195). -/
theorem accept_keeps_inv {s : State} (h : Inv s) (w : Word) : Inv (s.accept w) where
  status := rfl
  inWf := h.inWf
  inWithin := h.inWithin
  outWf := rfl
  outWithin := rfl
  busyOut _ := rfl
  idleOut hb := by simp at hb
  idleVer hb := by simp at hb
  failed hf := by simp at hf

/-- A write of a byte inside IN keeps the invariant (R27). -/
theorem writeIn_keeps_inv {s : State} (h : Inv s) {i : Nat} (hi : i < s.cfg.inCap) (b : Byte) :
    Inv { s with inBuf := Memory.write s.inBuf i b } :=
  { h with
    inWf := Memory.wf_write _ _ _ h.inWf
    inWithin := Memory.within_write _ _ h.inWithin hi }

/-- A successful completion keeps the invariant when the result fits OUT (R196, R163). -/
theorem completeOk_keeps_inv {s : State} (h : Inv s) {out : List Byte} (hout : out.length ≤ s.cfg.outCap)
    (ver : Byte) : Inv (s.completeOk out ver) where
  status := rfl
  inWf := h.inWf
  inWithin := h.inWithin
  outWf := Memory.wf_ofBytes ..
  outWithin := Memory.within_ofBytes _ _ _ (by simpa using hout)
  busyOut hb := by simp at hb
  idleOut _ i := by
    have hcap := s.cfg.outCap_le
    have hlen : out.length % 2 ^ 32 = out.length := Nat.mod_eq_of_lt (by omega)
    rw [State.completeOk_outBuf, State.completeOk_outLen, Memory.read_ofBytes_zero, BitVec.toNat_ofNat, hlen]
    exact Bool.eq_iff_iff.2 (by simp)
  idleVer _ := (setWidth_byte ver).2
  failed hf := by simp at hf

/-- Taking an error keeps the invariant (R197). -/
theorem completeErr_keeps_inv {s : State} (h : Inv s) (e : ErrorKind) : Inv (s.completeErr e) where
  status := statusLegal_failure e
  inWf := h.inWf
  inWithin := h.inWithin
  outWf := rfl
  outWithin := rfl
  busyOut _ := rfl
  idleOut _ i := by simp
  idleVer _ := by simp
  failed _ := ⟨rfl, rfl⟩

/-- A command's completion step keeps the invariant. -/
theorem exec_keeps_inv {s t : State} (h : Inv s) {i : Instr} (hx : exec i s = .next t) : Inv t := by
  obtain ⟨r, hr, rfl⟩ := (exec_next_iff i s t).1 hx
  cases r with
  | ok out ver => exact completeOk_keeps_inv h (length_evaluate_le hr) ver
  | err e => exact completeErr_keeps_inv h e

/-- The engine's step keeps the invariant. -/
theorem engineStep_keeps_inv {s t : State} (h : Inv s) (hs : engineStep s = .next t) : Inv t := by
  rcases engineStep_cases s with ⟨i, -, e⟩ | ⟨-, e⟩
  · exact exec_keeps_inv h (e.symm.trans hs)
  · obtain rfl : s.completeErr .illegalCommand = t := by simpa [e] using hs
    exact completeErr_keeps_inv h _

/-- Every transaction keeps the invariant. -/
theorem busAccess_keeps_inv {s : State} (h : Inv s) (t : Txn) : Inv (busAccess s t).2 := by
  rcases busAccess_state s t with ⟨n, e⟩ | ⟨v, -, e⟩ | ⟨v, e⟩ | ⟨i, b, hi, e⟩ <;> rw [e]
  · exact h.of_sameBuffers ..
  · exact accept_keeps_inv h v
  · exact h.of_sameBuffers ..
  · exact writeIn_keeps_inv h hi b

/-- Every move of the outside world keeps the invariant. -/
theorem hostMove_keeps_inv {s : State} (h : Inv s) (e : Event) : Inv (hostMove s e) := by
  rcases hostMove_cases s e with ⟨-, eq⟩ | ⟨t, es, rs, -, eq⟩ <;> rw [eq]
  · exact inv_applyReset s
  · exact (busAccess_keeps_inv h t).of_sameBuffers ..

/-! ### The statements -/

/-- Settles O13: by what one step can do, each kind of which keeps the invariant; a result fits OUT by R143 and
R149. -/
theorem everyStepKeepsInvariant : Obligations.EveryStepKeepsInvariant := by
  intro s t h hs
  rcases step_cases s with ⟨-, e⟩ | ⟨-, -, e⟩ | ⟨-, ev, rest, -, e⟩ <;> rw [e] at hs
  · exact engineStep_keeps_inv h hs
  · cases hs; exact h
  · cases hs
    exact hostMove_keeps_inv (h.of_sameBuffers ..) ev

/-- Settles O15: an idle block takes no step of its own, and the only transaction that touches a result is an
acceptance. -/
theorem resultsPersistUntilAcceptanceOrReset : Obligations.ResultsPersistUntilAcceptanceOrReset := by
  intro s t hidle hs hrst hcmd
  rcases step_cases s with ⟨hturn, -⟩ | ⟨-, -, e⟩ | ⟨-, ev, rest, hev, e⟩
  · rw [engineTurn_idle hidle] at hturn; cases hturn
  · rw [e] at hs; cases hs; exact ⟨rfl, rfl, rfl, rfl, rfl⟩
  · rw [e] at hs
    cases hs
    rw [hev] at hrst hcmd
    rcases hostMove_cases (s.popEvent rest) ev with ⟨rfl, -⟩ | ⟨txn, es, rs, htxn, eq⟩
    · exact absurd rfl hrst
    rw [eq]
    rcases busAccess_state (s.popEvent rest) txn with ⟨n, e'⟩ | ⟨v, rfl, -⟩ | ⟨v, e'⟩ | ⟨i, b, -, e'⟩
    · rw [e']; exact ⟨rfl, rfl, rfl, rfl, rfl⟩
    · rcases htxn with rfl | ⟨a, n, h⟩
      · exact absurd rfl (hcmd 4 v)
      · cases h
    · rw [e']; exact ⟨rfl, rfl, rfl, rfl, rfl⟩
    · rw [e']; exact ⟨rfl, rfl, rfl, rfl, rfl⟩

/-- Settles O38: the byte stands at its address and has no value to answer, and no range that covers it has one. -/
theorem unwrittenInputIsRefused : Obligations.UnwrittenInputIsRefused := by
  intro s k hk hcap
  refine ⟨by simp [busAccess, busRead, placeAt_in s.cfg hcap, hk, readByte], fun i htag hlen hcover => ?_⟩
  exact (exec_refused_iff i s).2 ((evaluate_eq_none_iff ..).2 ⟨htag, hlen, k, hcover, hk⟩)

/-- Settles O42: both launches evaluate alike, and the result decides all that is observed. -/
theorem resultDependsOnlyOnTheInput : Obligations.ResultDependsOnlyOnTheInput := by
  intro i s s' hcfg hlen hin
  have heval : evaluate s.cfg s.inLen s.inBuf i.alph (ownPart i) =
      evaluate s'.cfg s'.inLen s'.inBuf i.alph (ownPart i) := by
    rw [← hcfg, ← hlen]; exact evaluate_congr hin ..
  cases hr : evaluate s.cfg s.inLen s.inBuf i.alph (ownPart i) with
  | some r =>
    exact .inl ⟨_, _, (exec_next_iff ..).2 ⟨r, hr, rfl⟩, (exec_next_iff ..).2 ⟨r, heval ▸ hr, rfl⟩,
      observe_complete s s' r⟩
  | none => exact .inr ⟨(exec_refused_iff ..).2 hr, (exec_refused_iff ..).2 (heval ▸ hr)⟩

/-- Settles O10: State.resetOf writes the values out, and an empty buffer has no byte. -/
theorem resetLeavesTheStatedValues : Obligations.ResetLeavesTheStatedValues :=
  fun _ => ⟨rfl, rfl, rfl, rfl, rfl, fun _ => ⟨rfl, rfl⟩, rfl⟩

/-- Settles O12: every reset state satisfies the invariant, and State.reset is one of the default configuration. -/
theorem resetSatisfiesInvariant : Obligations.ResetSatisfiesInvariant :=
  ⟨inv_resetOf defaultConfig, inv_resetOf, rfl, rfl, rfl, rfl⟩

end Sys2Proof.Machine

/-! SUPPORT. The proofs of the statements on the bus (20_memory.md), with the lemmas they need: which reads are legal,
what each legal transaction answers, and what a command's completion step leaves. -/

namespace Sys2Proof.Machine

/-! ### Which reads are legal (R53) -/

/-- The one size a read of a place may have, or none where no read is legal (R53). -/
def Place.readSize : Place → Option Nat
  | .reg _ => some 4
  | .inByte _ => some 1
  | .outByte _ => some 1
  | .unmapped => none

/-- A read is legal exactly when it has the size of the place it reads; any other read is answered ERROR and changes
nothing (R52, R53). -/
theorem busRead_cases (s : State) (a : Addr) (n : Nat) :
    ((placeAt s.cfg a).readSize = some n ∧ (busRead s a n).1 ≠ .error) ∨
    ((placeAt s.cfg a).readSize ≠ some n ∧ busRead s a n = (.error, s)) := by
  simp only [busRead]
  cases placeAt s.cfg a with
  | reg r => by_cases hn : n = 4 <;> simp [Place.readSize, hn, eq_comm]
  | inByte i => by_cases hn : n = 1 <;> simp [Place.readSize, hn, eq_comm]
  | outByte i =>
    by_cases hn : n = 1
    · simp only [Place.readSize, if_pos hn]; split <;> simp [hn]
    · simp [Place.readSize, hn, eq_comm]
  | unmapped => simp [Place.readSize]

/-- Whether a read is refused depends on the address map alone, so not on a command in flight (R61). -/
theorem busRead_eq_error_iff (s : State) (a : Addr) (n : Nat) :
    (busRead s a n).1 = .error ↔ (placeAt s.cfg a).readSize ≠ some n := by
  rcases busRead_cases s a n with ⟨hsize, hok⟩ | ⟨hsize, e⟩
  · simp [hsize, hok]
  · simp [hsize, e]

/-- The places of the address map that have a read size, by their addresses (R51, R53). -/
theorem readSize_placeAt_iff (c : Config) (a : Addr) (n : Nat) :
    (placeAt c a).readSize = some n ↔
      (n = 4 ∧ (a = 0x0000 ∨ a = 0x0004 ∨ a = 0x0008 ∨ a = 0x000C ∨ a = 0x0010)) ∨
      (n = 1 ∧ 0x1000 ≤ a.toNat ∧ a.toNat < 0x1000 + c.inCap) ∨
      (n = 1 ∧ 0x2000 ≤ a.toNat ∧ a.toNat < 0x2000 + c.outCap) := by
  rcases placeAt_cases c a with
    ⟨rfl, e⟩ | ⟨rfl, e⟩ | ⟨rfl, e⟩ | ⟨rfl, e⟩ | ⟨rfl, e⟩ | ⟨hlo, hhi, e⟩ | ⟨hlo, hhi, e⟩ |
      ⟨h0, h4, h8, hc, h10, hin, hout, e⟩ <;> rw [e]
  iterate 5 simp [Place.readSize, eq_comm]
  · simp only [Place.readSize, Option.some.injEq]
    bv_omega
  · simp only [Place.readSize, Option.some.injEq]
    bv_omega
  · simp only [Place.readSize, reduceCtorEq, false_iff]
    bv_omega

/-! ### What each legal transaction answers (R53, R61) -/

section
variable {s : State} {a : Addr}

theorem busRead_reg {r : Reg} (h : placeAt s.cfg a = .reg r) :
    busRead s a 4 = (.data (readReg s r).1, (readReg s r).2) := by simp [busRead, h]

theorem readReg_idle (hidle : s.busy = false) :
    readReg s .outLen = (s.outLen, s) ∧ readReg s .verOut = (s.verOut, s) := by simp [readReg, hidle]

theorem readReg_busy (hbusy : s.busy = true) :
    readReg s .outLen = s.drawWord ∧ readReg s .verOut = s.drawWord := by simp [readReg, hbusy]

/-- A byte of IN that has a value reads as it, busy or not. -/
theorem busRead_in {i : Nat} {b : Byte} (hi : i < s.cfg.inCap) (hb : Memory.read s.inBuf i = some b) :
    busRead s (BitVec.ofNat 14 (0x1000 + i)) 1 = (.data (b.setWidth 32), s) := by
  simp [busRead, placeAt_in s.cfg hi, hb, readByte]

/-- A byte of OUT that has a value reads as it while idle. -/
theorem busRead_out_idle {i : Nat} {b : Byte} (hi : i < s.cfg.outCap) (hidle : s.busy = false)
    (hb : Memory.read s.outBuf i = some b) :
    busRead s (BitVec.ofNat 14 (0x2000 + i)) 1 = (.data (b.setWidth 32), s) := by
  simp [busRead, placeAt_out s.cfg hi, hidle, hb, readByte]

/-- While busy every byte of OUT reads as a free value. -/
theorem busRead_out_busy {i : Nat} (hi : i < s.cfg.outCap) (hbusy : s.busy = true) :
    busRead s (BitVec.ofNat 14 (0x2000 + i)) 1 =
      (.data ((Config.unspecifiedByte s.draws).setWidth 32), { s with draws := s.draws + 1 }) := by
  simp [busRead, placeAt_out s.cfg hi, hbusy]

theorem busWrite_cmd (hidle : s.busy = false) (v : Word) : busWrite s 0x0000 4 v = (.ok, s.accept v) := by
  simp [busWrite, hidle]

theorem busWrite_inLen (hidle : s.busy = false) (v : Word) :
    busWrite s 0x0008 4 v = (.ok, { s with inLen := v }) := by
  simp [busWrite, hidle]

theorem busWrite_in {i : Nat} {v : Word} (h : placeAt s.cfg a = .inByte i) (hidle : s.busy = false)
    (hv : v.toNat < 256) :
    busWrite s a 1 v = (.ok, { s with inBuf := Memory.write s.inBuf i (v.setWidth 8) }) := by
  simp [busWrite, h, hidle, hv]

/-- The write of a byte to IN[i], with the byte carried in a 32-bit value (R53 item 4). -/
theorem busWrite_inByte {i : Nat} (hi : i < s.cfg.inCap) (hidle : s.busy = false) (b : Byte) :
    busWrite s (BitVec.ofNat 14 (0x1000 + i)) 1 (b.setWidth 32) =
      (.ok, { s with inBuf := Memory.write s.inBuf i b }) := by
  obtain ⟨hbyte, hfits⟩ := setWidth_byte b
  rw [busWrite_in (placeAt_in s.cfg hi) hidle hfits, hbyte]

end

/-- An address inside IN's window is one of its elements (R51). -/
theorem placeAt_inWindow {c : Config} {a : Addr} (hlo : 0x1000 ≤ a.toNat) (hhi : a.toNat < 0x1000 + c.inCap) :
    placeAt c a = .inByte (a.toNat - 0x1000) := by
  have h := placeAt_in c (i := a.toNat - 0x1000) (by omega)
  rwa [Nat.add_sub_cancel' hlo, BitVec.ofNat_toNat, BitVec.setWidth_eq] at h

/-- A write whose value fits its size is legal exactly while idle, on CMD, IN_LEN and the bytes of IN (R53, R60). -/
theorem busWrite_ne_error_iff (s : State) (a : Addr) (n : Nat) (v : Word) (hv : n = 1 → v.toNat < 256) :
    (busWrite s a n v).1 ≠ .error ↔
      s.busy = false ∧ ((n = 4 ∧ (a = 0x0000 ∨ a = 0x0008)) ∨
        (n = 1 ∧ 0x1000 ≤ a.toNat ∧ a.toNat < 0x1000 + s.cfg.inCap)) := by
  constructor
  · intro h
    rcases busWrite_cases s a n v with e | ⟨hidle, hn, ha, -⟩ | ⟨hidle, hn, ha, -⟩ | ⟨hidle, hn, -, i, hi, ha, -⟩
    · rw [e] at h; exact absurd rfl h
    · exact ⟨hidle, .inl ⟨hn, .inl ha⟩⟩
    · exact ⟨hidle, .inl ⟨hn, .inr ha⟩⟩
    · exact ⟨hidle, .inr ⟨hn, by omega, by omega⟩⟩
  · rintro ⟨hidle, ⟨rfl, rfl | rfl⟩ | ⟨rfl, hlo, hhi⟩⟩
    · rw [busWrite_cmd hidle]; exact Response.noConfusion
    · rw [busWrite_inLen hidle]; exact Response.noConfusion
    · rw [busWrite_in (placeAt_inWindow hlo hhi) hidle (hv rfl)]; exact Response.noConfusion

/-! ### STATUS while busy, and completion -/

/-- The only value of STATUS with BUSY set is the one acceptance writes (R24, R61). -/
theorem eq_statusAccepted_of_busy {w : Word} (hlegal : statusLegal w = true) (hbusy : statusBusy w = true) :
    w = statusAccepted := by
  simp only [statusLegal, Bool.or_eq_true, beq_iff_eq] at hlegal
  rcases hlegal with (((((((rfl | rfl) | rfl) | rfl) | rfl) | rfl) | rfl) | rfl) | rfl
  case inl.inl.inl.inl.inl.inl.inl.inr => rfl
  all_goals exact absurd hbusy (by decide)

/-- A completion step leaves STATUS a completed one (R196, R197). -/
theorem statusDone_complete (s : State) (r : Result) : statusDone (s.complete r).status = true := by
  cases r <;> simp

/-- After a completion step bits 31:8 of VER_OUT are 0 (R29). -/
theorem verOut_complete_lt (s : State) (r : Result) : (s.complete r).verOut.toNat < 256 := by
  cases r with
  | ok out ver => exact (setWidth_byte ver).2
  | err e => simp

/-- After a command's completion step no byte of OUT at or beyond OUT_LEN is specified: the result fits OUT, so
OUT_LEN is its length (R28, R163). -/
theorem outBuf_complete_unspecified {s : State} {i : Instr} {r : Result}
    (hr : evaluate s.cfg s.inLen s.inBuf i.alph (ownPart i) = some r) {k : Nat}
    (hk : (s.complete r).outLen.toNat ≤ k) : Memory.read (s.complete r).outBuf k = none := by
  cases r with
  | ok out ver =>
    have hcap := s.cfg.outCap_le
    have hlen := length_evaluate_le hr
    obtain ⟨-, hout, hread, -⟩ := doneWith_completeOk s out ver (by omega)
    rw [State.complete_ok] at hk ⊢
    rw [hread, List.getElem?_eq_none (hout ▸ hk)]
  | err e => rfl

/-! ### The statements -/

/-- Settles O17: a refused read and a refused write answer the state they found. -/
theorem erroredTransactionChangesNothing : Obligations.ErroredTransactionChangesNothing := by
  intro s t herr
  cases t with
  | memRead a n =>
    rcases busRead_cases s a n with ⟨-, hok⟩ | ⟨-, e⟩
    · exact absurd herr hok
    · rw [busAccess, e]
  | memWrite a n v =>
    rw [busAccess] at herr ⊢
    rcases busWrite_cases s a n v with e | ⟨-, -, -, e⟩ | ⟨-, -, -, e⟩ | ⟨-, -, -, i, -, -, e⟩
    · rw [e]
    all_goals rw [e] at herr; cases herr

/-- Settles O18: the answers of the five kinds, then which reads and which writes are legal. -/
theorem legalTransactionsAreExactlyThese : Obligations.LegalTransactionsAreExactlyThese := by
  refine ⟨fun s hidle => ?_, fun s v hidle => ⟨busWrite_inLen hidle v, busWrite_cmd hidle v⟩,
    fun s i b hi hb => busRead_in hi hb, fun s i b hi hidle => busWrite_inByte hi hidle b,
    fun s i b hi hidle hb => busRead_out_idle hi hidle hb, fun s a n => ?_, busWrite_ne_error_iff⟩
  · obtain ⟨houtLen, hverOut⟩ := readReg_idle hidle
    exact ⟨busRead_reg (placeAt_cmd _), busRead_reg (placeAt_status _), busRead_reg (placeAt_inLen _),
      (busRead_reg (placeAt_outLen _)).trans (by rw [houtLen]),
      (busRead_reg (placeAt_verOut _)).trans (by rw [hverOut])⟩
  · rw [busAccess, Ne, busRead_eq_error_iff, not_not, readSize_placeAt_iff]

/-- Settles O19: every write that is not refused finds the block idle. -/
theorem writesWhileBusyAreRefused : Obligations.WritesWhileBusyAreRefused := by
  intro s a n v hbusy
  rcases busWrite_cases s a n v with e | ⟨hidle, -⟩ | ⟨hidle, -⟩ | ⟨hidle, -⟩
  · exact e
  all_goals rw [hbusy] at hidle; cases hidle

/-- Settles O20: the answers at the busy places, and legality, which reads the configuration alone. -/
theorem readsWhileBusy : Obligations.ReadsWhileBusy := by
  intro s hinv hbusy
  have hstatus : s.status = 0x00000001 := eq_statusAccepted_of_busy hinv.status hbusy
  obtain ⟨houtLen, hverOut⟩ := readReg_busy hbusy
  have hreadOutLen : busAccess s (.memRead 0x000C 4) = (.data s.drawWord.1, s.drawWord.2) :=
    (busRead_reg (placeAt_outLen _)).trans (by rw [houtLen])
  have hreadVerOut : busAccess s (.memRead 0x0010 4) = (.data s.drawWord.1, s.drawWord.2) :=
    (busRead_reg (placeAt_verOut _)).trans (by rw [hverOut])
  have hreadOut : ∀ i, i < s.cfg.outCap → busAccess s (.memRead (BitVec.ofNat 14 (0x2000 + i)) 1) =
      (.data ((Config.unspecifiedByte s.draws).setWidth 32), { s with draws := s.draws + 1 }) :=
    fun i hi => busRead_out_busy hi hbusy
  refine ⟨congrArg Response.data hstatus, rfl, rfl, fun i b hi hb => congrArg Prod.fst (busRead_in hi hb),
    by rw [hreadOutLen]; rfl, by rw [hreadVerOut]; rfl, fun i hi => by rw [hreadOut i hi],
    by rw [hreadOutLen]; rfl, by rw [hreadVerOut]; rfl, fun i hi => by rw [hreadOut i hi], fun a n => ?_⟩
  exact (busRead_eq_error_iff s a n).trans (busRead_eq_error_iff { s with status := 0x00000000 } a n).symm

/-- Settles O21: a read changes nothing but the count of free values drawn. -/
theorem readsHaveNoSideEffect : Obligations.ReadsHaveNoSideEffect := by
  intro s a n
  rw [busAccess]
  rcases busRead_state s a n with e | e <;> rw [e] <;> exact ⟨rfl, rfl, rfl, rfl, rfl, rfl, rfl⟩

/-- Settles O22: the write stores the byte at its element alone, and the element then reads as it. -/
theorem inByteWriteReadsBack : Obligations.InByteWriteReadsBack := by
  intro s i b hi hidle
  exact ⟨_, busWrite_inByte hi hidle b, busRead_in hi (Memory.read_write_same ..),
    fun j hj => Memory.read_write_other _ _ hj, rfl, rfl, rfl, rfl, rfl, rfl⟩

/-- Settles O41: a command that goes on completes with its result, and a completion step touches nothing else. -/
theorem commandsChangeOnlyTheirResult : Obligations.CommandsChangeOnlyTheirResult := by
  intro i s t hexec
  obtain ⟨r, hr, rfl⟩ := (exec_next_iff i s t).1 hexec
  have houtside := sameOutside_complete s r
  have ⟨_, _, hin, _⟩ := houtside
  exact ⟨houtside, fun k => by rw [hin], fun k hk => outBuf_complete_unspecified hr hk, State.busy_complete s r,
    statusDone_complete s r, verOut_complete_lt s r⟩

end Sys2Proof.Machine

/-! SUPPORT. The proofs of the statements on the encoding and on the host's moves (30_encoding.md), with the lemmas they
need: which words decode and to what, what one served transaction leaves, and the runs of LOAD and DUMP. -/

namespace Sys2Proof

/-! ### Decoding and encoding (R76, R77, R82) -/

/-- What a word decodes to holds the word's own fields, and RSV was zero (R82). -/
theorem fields_of_decodeCmd_ok {w : Word} {i : Instr} (h : decodeCmd w = .ok i) :
    fieldRsv w = 0 ∧ i.op = fieldOp w ∧ i.alph = fieldAlph w ∧ i.ver = fieldVer w := by
  rcases decodeCmd_cases w with ⟨-, e⟩ | ⟨hrsv, hop, e⟩ | ⟨hrsv, hop, e⟩ | ⟨hrsv, hop, e⟩ | ⟨hrsv, hop, e⟩ |
    ⟨hrsv, hop, e⟩ | ⟨hrsv, hop, e⟩ | ⟨-, -, e⟩ <;> rw [e] at h <;> cases h
  all_goals exact ⟨hrsv, hop.symm, rfl, rfl⟩

theorem encode_of_decodeCmd_ok {w : Word} {i : Instr} (h : decodeCmd w = .ok i) : encode i = w := by
  obtain ⟨hrsv, hop, halph, hver⟩ := fields_of_decodeCmd_ok h
  rw [encode, hop, halph, hver, formatC_fields w hrsv]

/-- The decoder reads back the fields the encoder laid out. -/
@[simp] theorem decodeCmd_encode (i : Instr) : decodeCmd (encode i) = .ok i := by
  cases i <;>
    simp [decodeCmd, encode, fieldRsv_formatC, fieldOp_formatC, fieldAlph_formatC, fieldVer_formatC,
      Instr.op, Instr.alph, Instr.ver]

/-- The words the decoder refuses, by their fields (R82). -/
theorem decodeCmd_toOption_eq_none_iff (w : Word) :
    (decodeCmd w).toOption = none ↔
      fieldRsv w ≠ 0 ∨ fieldOp w = 0 ∨ fieldOp w = 4 ∨ 8 ≤ (fieldOp w).toNat := by
  rcases decodeCmd_cases w with ⟨hrsv, e⟩ | ⟨hrsv, hop, e⟩ | ⟨hrsv, hop, e⟩ | ⟨hrsv, hop, e⟩ | ⟨hrsv, hop, e⟩ |
    ⟨hrsv, hop, e⟩ | ⟨hrsv, hop, e⟩ | ⟨-, hop, e⟩
  · exact iff_of_true (by rw [e]; rfl) (.inl hrsv)
  iterate 6 simp [e, Except.toOption, hrsv, hop]
  · exact iff_of_true (by rw [e]; rfl) (.inr hop)

/-- The all-zero word selects no command (R84). -/
theorem decodeCmd_zero : (decodeCmd 0).toOption = none := rfl

/-! ### Words under the mask of R78 -/

/-- The mask of R78 keeps RSV and OP. -/
theorem fields_and_mask (w : Word) :
    fieldRsv (w &&& 0xFFFF000F) = fieldRsv w ∧ fieldOp (w &&& 0xFFFF000F) = fieldOp w := by
  have hrsv : fieldRsv 0xFFFF000F = BitVec.allOnes 16 := by decide
  have hop : fieldOp 0xFFFF000F = BitVec.allOnes 4 := by decide
  simp only [fieldRsv, fieldOp, BitVec.extractLsb'_and] at hrsv hop ⊢
  exact ⟨by rw [hrsv, BitVec.and_allOnes], by rw [hop, BitVec.and_allOnes]⟩

/-- A word under the mask of R78 is a bare OP exactly when its RSV is zero and its OP is that one. -/
theorem and_mask_eq_iff (w : Word) (op : BitVec 4) :
    w &&& 0xFFFF000F = op.setWidth 32 ↔ fieldRsv w = 0 ∧ fieldOp w = op := by
  constructor
  · intro h
    rw [← formatC_and_mask op 0 0] at h
    obtain ⟨hrsv, hop⟩ := fields_and_mask w
    obtain ⟨hrsv', hop'⟩ := fields_and_mask (formatC op 0 0)
    rw [← hrsv, ← hop, h, hrsv', hop', fieldRsv_formatC, fieldOp_formatC]
    exact ⟨rfl, rfl⟩
  · rintro ⟨hrsv, rfl⟩
    rw [← formatC_fields w hrsv, formatC_and_mask, fieldOp_formatC]

/-- The operands of a command do not touch its OP. -/
theorem Mnemonic.encode_instr (m : Mnemonic) (alph : BitVec 4) (ver : Byte) :
    encode (m.instr alph ver) = formatC (m.instr 0 0).op alph ver := by
  cases m <;> rfl

/-- A word selects a mnemonic's command exactly when its bits under the mask are the mnemonic's OP (R78). -/
theorem Mnemonic.selected_iff (m : Mnemonic) (w : Word) :
    (∃ alph ver, decodeCmd w = .ok (m.instr alph ver)) ↔ w &&& 0xFFFF000F = (m.instr 0 0).op.setWidth 32 := by
  constructor
  · rintro ⟨alph, ver, h⟩
    rw [← encode_of_decodeCmd_ok h, m.encode_instr, formatC_and_mask]
  · intro h
    obtain ⟨hrsv, hop⟩ := (and_mask_eq_iff w _).1 h
    have hw : encode (m.instr (fieldAlph w) (fieldVer w)) = w := by
      rw [m.encode_instr, ← hop, formatC_fields w hrsv]
    exact ⟨_, _, hw ▸ decodeCmd_encode _⟩

/-! ### Command lines (R86) -/

theorem assemble_cmd {m : Mnemonic} {a : AlphRef} {ver : Option Nat} (h : (AsmLine.cmd m a ver).wf = true) :
    assemble (.cmd m a ver) = some (encode (m.instr a.tag (BitVec.ofNat 8 (ver.getD 0)))) := by
  rw [assemble, if_pos h]

/-- A version that R86 allows fits its byte, and one that is not written is 0. -/
theorem Mnemonic.ver_lt_of_verWf {m : Mnemonic} {ver : Option Nat} (h : m.verWf ver = true) : ver.getD 0 < 256 := by
  cases ver with
  | none => simp
  | some v =>
    cases m with
    | encv | decv => simp [Mnemonic.verWf] at h ⊢; omega
    | enc | encc | dec | decc => simp [Mnemonic.verWf] at h

theorem AlphRef.tag_raw_toNat {n : Nat} (h : (AlphRef.raw n).wf = true) : (AlphRef.raw n).tag.toNat = n := by
  have hn : n ≤ 15 := by simpa [AlphRef.wf] using h
  rw [AlphRef.tag, BitVec.toNat_ofNat]
  exact Nat.mod_eq_of_lt (by omega)

/-! ### The statements on words -/

/-- Settles O1: the fields of a word of format C are what it was made of, and its lanes carry the whole word. -/
theorem decodeOfEncodeIsIdentity : Obligations.DecodeOfEncodeIsIdentity :=
  fun i => ⟨decodeCmd_encode i, (decodeLanes_lanes _).trans (decodeCmd_encode i)⟩

/-- Settles O2: a word that decodes has RSV zero, so its three other fields make it up. -/
theorem encodeOfDecodeIsIdentity : Obligations.EncodeOfDecodeIsIdentity :=
  fun _ _ h => encode_of_decodeCmd_ok h

/-- Settles O3: the mask keeps exactly RSV and OP, which alone select the command. -/
theorem wordSelectsByMaskAndMatch : Obligations.WordSelectsByMaskAndMatch :=
  fun w => ⟨Mnemonic.enc.selected_iff w, Mnemonic.encc.selected_iff w, Mnemonic.encv.selected_iff w,
    Mnemonic.dec.selected_iff w, Mnemonic.decc.selected_iff w, Mnemonic.decv.selected_iff w⟩

/-- Settles O4: the refused words by their fields, and the fields as numbers. -/
theorem decoderRefusesExactlyReservedWords : Obligations.DecoderRefusesExactlyReservedWords := by
  refine fun w => ⟨?_, fun i h => ?_⟩
  · rw [decodeCmd_toOption_eq_none_iff, Ne, fieldRsv_eq_zero_iff, fieldOp_eq_iff, fieldOp_eq_iff, fieldOp_toNat]
    rfl
  · obtain ⟨-, hop, halph, hver⟩ := fields_of_decodeCmd_ok h
    rw [hop, halph, hver]
    exact ⟨fieldOp_toNat w, fieldAlph_toNat w, fieldVer_toNat w⟩

/-- Settles O6: the word is the encoding of the command named, and both operands fit their fields. -/
theorem assembledLineDecodesToItsCommand : Obligations.AssembledLineDecodesToItsCommand := by
  intro m a ver hwf
  obtain ⟨halph, hver⟩ : a.wf = true ∧ m.verWf ver = true := by simpa [AsmLine.wf] using hwf
  refine ⟨_, a.tag, BitVec.ofNat 8 (ver.getD 0), assemble_cmd hwf, decodeCmd_encode _, ?_, ?_, ?_, ?_, ?_, ?_, ?_⟩
  · rw [BitVec.toNat_ofNat]
    exact Nat.mod_eq_of_lt (Mnemonic.ver_lt_of_verWf hver)
  · rintro n rfl
    exact AlphRef.tag_raw_toNat halph
  · rintro x rfl
    rfl
  all_goals rintro rfl; rfl

/-- Settles O5: each word is the encoding of the command beside it, and the last is the all-zero word. -/
theorem writtenOutWordsDecode : Obligations.WrittenOutWordsDecode :=
  ⟨decodeCmd_encode (.enc 0 0), decodeCmd_encode (.encc 2 0), decodeCmd_encode (.encv 0 0x80),
    decodeCmd_encode (.dec 3 0), decodeCmd_encode (.decc 1 0), decodeCmd_encode (.decv 0 0),
    decodeCmd_encode (.decv 0 5), decodeCmd_encode (.enc 9 0), decodeCmd_zero⟩

end Sys2Proof

namespace Sys2Proof.Machine

/-! ### Steps of the outside world and of the engine -/

/-- A step that is not the engine's is the next move of the outside world. -/
theorem step_hostMove {s : State} {e : Event} {rest : List Event} (hturn : s.engineTurn = false)
    (hev : s.events = e :: rest) : step s = .next (hostMove (s.popEvent rest) e) := by
  rcases step_cases s with ⟨h, -⟩ | ⟨-, h, -⟩ | ⟨-, e', rest', h, eq⟩
  · rw [hturn] at h; cases h
  · rw [hev] at h; cases h
  · obtain ⟨rfl, rfl⟩ := List.cons.inj (hev.symm.trans h)
    exact eq

/-- A word that selects no command completes with IllegalCommand on the engine's turn (R191). -/
theorem step_illegalWord {s : State} (hturn : s.engineTurn = true) (hword : (decodeCmd s.cmd).toOption = none) :
    step s = .next (s.completeErr .illegalCommand) := by
  rcases step_cases s with ⟨-, e⟩ | ⟨h, -⟩ | ⟨h, -⟩
  · rcases engineStep_cases s with ⟨i, hi, -⟩ | ⟨-, e'⟩
    · rw [hi] at hword; cases hword
    · rw [e, e']
  all_goals rw [hturn] at h; cases h

/-- s after as many moves of the outside world as rs has elements, answered rs, with rest the moves still to come. -/
def State.answered (s : State) (rest : List Event) (rs : List Response) : State :=
  { s with events := rest, responses := s.responses ++ rs, busyLeft := s.busyLeft - rs.length }

@[simp] theorem State.answered_nil (s : State) : s.answered s.events [] = s := by simp [State.answered]

@[simp] theorem State.answered_answered (s : State) (es es' : List Event) (rs rs' : List Response) :
    (s.answered es rs).answered es' rs' = s.answered es' (rs ++ rs') := by
  simp [State.answered, Nat.sub_sub]

/-- An idle block serves the host's next transaction and hands the response over (R63). -/
theorem step_bus {s u : State} {t : Txn} {r : Response} {rest : List Event} (hidle : s.busy = false)
    (hev : s.events = .bus t :: rest) (hacc : busAccess (s.popEvent rest) t = (r, u.popEvent rest)) :
    step s = .next (u.answered rest [r]) := by
  rw [step_hostMove (engineTurn_idle hidle) hev, hostMove, serve, hacc]; rfl

/-! ### WAIT (R87) -/

/-- One poll of STATUS: WAIT stays the next move unless the value read has DONE set. -/
theorem hostMove_waitDone (s : State) (rest : List Event) :
    hostMove (s.popEvent rest) .waitDone =
      s.answered (if statusDone s.status then rest else .waitDone :: rest) [.data s.status] := by
  have hpoll : busAccess (s.popEvent rest) statusPoll = (.data s.status, s.popEvent rest) :=
    busRead_reg (s := s.popEvent rest) (placeAt_status s.cfg)
  simp only [hostMove, serve, hpoll, sawDone]
  split <;> rfl

/-! ### LOAD (R87) -/

/-- A buffer after the bytes bs have been written to it one by one from element i on. -/
def Memory.writeBytes (m : Memory) (i : Nat) : List Byte → Memory
  | [] => m
  | b :: bs => Memory.writeBytes (Memory.write m i b) (i + 1) bs

theorem Memory.read_writeBytes_below (m : Memory) {i j : Nat} (bs : List Byte) (h : j < i) :
    Memory.read (m.writeBytes i bs) j = Memory.read m j := by
  induction bs generalizing m i with
  | nil => rfl
  | cons b bs ih => rw [writeBytes, ih _ (by omega), Memory.read_write_other _ _ (by omega)]

theorem Memory.read_writeBytes (m : Memory) (i : Nat) (bs : List Byte) {k : Nat} (hk : k < bs.length) :
    Memory.read (m.writeBytes i bs) (i + k) = bs[k]? := by
  induction bs generalizing m i k with
  | nil => cases hk
  | cons b bs ih =>
    rw [writeBytes]
    cases k with
    | zero =>
      rw [read_writeBytes_below _ _ (by omega), Nat.add_zero, Memory.read_write_same]
      rfl
    | succ k =>
      rw [show i + (k + 1) = i + 1 + k by omega, ih _ _ (by simpa using hk), List.getElem?_cons_succ]

/-- s with the bytes bs written to IN from element i on. -/
def State.writeIn (s : State) (i : Nat) (bs : List Byte) : State := { s with inBuf := s.inBuf.writeBytes i bs }

/-- The first byte write of a LOAD. -/
theorem step_hostBytes {s : State} {i : Nat} {b : Byte} {bs : List Byte} {rest : List Event} (hidle : s.busy = false)
    (hi : i < s.cfg.inCap) (hev : s.events = hostBytes i (b :: bs) ++ rest) :
    step s = .next ((s.writeIn i [b]).answered (hostBytes (i + 1) bs ++ rest) [.ok]) :=
  step_bus hidle hev (busWrite_inByte (s := s.popEvent (hostBytes (i + 1) bs ++ rest)) hi hidle b)

/-- The byte writes of a LOAD take one step each, are answered OK, and leave the bytes in IN. -/
theorem run_hostBytes {s : State} {i : Nat} {bs : List Byte} {rest : List Event} (hidle : s.busy = false)
    (hcap : i + bs.length ≤ s.cfg.inCap) (hev : s.events = hostBytes i bs ++ rest) (k : Nat) :
    Sys2Proof.core.run (bs.length + k) s =
      Sys2Proof.core.run k ((s.writeIn i bs).answered rest (List.replicate bs.length .ok)) := by
  induction bs generalizing s i with
  | nil =>
    obtain rfl : s.events = rest := hev
    rw [List.length_nil, Nat.zero_add]
    exact congrArg _ (State.answered_nil s).symm
  | cons b bs ih =>
    rw [List.length_cons] at hcap ⊢
    rw [Nat.add_right_comm, run_succ _ _ _ (step_hostBytes hidle (by omega) hev)]
    exact (ih (s := (s.writeIn i [b]).answered _ _) (i := i + 1) hidle (Nat.add_right_comm i 1 _ ▸ hcap) rfl).trans
      (congrArg _ (State.answered_answered (s.writeIn i (b :: bs)) _ _ [.ok] _))

/-- The write of IN_LEN that ends a LOAD. -/
theorem step_hostWr_inLen {s : State} {v : Word} {rest : List Event} (hidle : s.busy = false)
    (hev : s.events = hostWr .inLen v ++ rest) :
    step s = .next (({ s with inLen := v } : State).answered rest [.ok]) :=
  step_bus hidle hev (busWrite_inLen (s := s.popEvent rest) hidle v)

/-! ### DUMP (R87) -/

/-- While idle OUT_LEN never exceeds the OUT buffer: all bytes below it are specified (R28, R163). -/
theorem Inv.outLen_le {s : State} (h : Inv s) (hidle : s.busy = false) : s.outLen.toNat ≤ s.cfg.outCap := by
  by_contra hlt
  have hsome := h.idleOut hidle s.cfg.outCap
  rw [decide_eq_true (by omega)] at hsome
  obtain ⟨b, hb⟩ := Option.isSome_iff_exists.1 hsome
  exact absurd (Memory.read_lt_of_within h.outWithin hb) (lt_irrefl _)

/-- While idle the OUT_LEN result bytes all have a value (R28). -/
theorem Inv.exists_result {s : State} (h : Inv s) (hidle : s.busy = false) :
    ∃ out : List Byte, out.length = s.outLen.toNat ∧ ∀ i, i < out.length → Memory.read s.outBuf i = out[i]? := by
  cases hr : Memory.readRange s.outBuf 0 s.outLen.toNat with
  | none =>
    obtain ⟨i, hi, hnone⟩ := (Memory.readRange_eq_none ..).1 hr
    have hsome := h.idleOut hidle i
    rw [Nat.zero_add] at hnone
    simp [hnone] at hsome
    omega
  | some out =>
    obtain ⟨hlen, hread⟩ := (Memory.readRange_eq_some ..).1 hr
    exact ⟨out, hlen, fun i hi => by simpa using hread i (hlen ▸ hi)⟩

/-- The OUT reads of a DUMP from element i on. -/
def outReads (i n : Nat) : List Event :=
  (List.range' i n).map fun j => .bus (.memRead (BitVec.ofNat 14 (0x2000 + j)) 1)

theorem dumpReads_eq_outReads {n : Nat} (h : n ≤ 0x2000) : dumpReads n = outReads 0 n := by
  rw [dumpReads, Nat.min_eq_left h, List.range_eq_range']; rfl

/-- While idle a DUMP's first step reads OUT_LEN and puts the OUT reads next. -/
theorem hostMove_dump {s : State} (hidle : s.busy = false) (rest : List Event) :
    hostMove (s.popEvent rest) .dump = s.answered (dumpReads s.outLen.toNat ++ rest) [.data s.outLen] := by
  have hread : busAccess (s.popEvent rest) (.memRead (BitVec.ofNat 14 (regOffset .outLen)) 4) =
      (.data s.outLen, s.popEvent rest) :=
    (busRead_reg (s := s.popEvent rest) (placeAt_outLen s.cfg)).trans
      (by rw [(readReg_idle (s := s.popEvent rest) hidle).1]; rfl)
  simp only [hostMove, serve, hread, dumpRest]
  rfl

/-- The first OUT read of a DUMP. -/
theorem step_outReads {s : State} {i n : Nat} {b : Byte} {rest : List Event} (hidle : s.busy = false)
    (hi : i < s.cfg.outCap) (hb : Memory.read s.outBuf i = some b) (hev : s.events = outReads i (n + 1) ++ rest) :
    step s = .next (s.answered (outReads (i + 1) n ++ rest) [.data (b.setWidth 32)]) :=
  step_bus hidle hev (busRead_out_idle (s := s.popEvent (outReads (i + 1) n ++ rest)) hi hidle hb)

/-- Reads of specified OUT bytes while idle take one step each, answer the bytes in order, and change nothing else. -/
theorem run_outReads {s : State} {i : Nat} {out : List Byte} {rest : List Event} (hidle : s.busy = false)
    (hcap : i + out.length ≤ s.cfg.outCap)
    (hread : ∀ j, j < out.length → Memory.read s.outBuf (i + j) = out[j]?)
    (hev : s.events = outReads i out.length ++ rest) :
    Sys2Proof.core.run out.length s = .next (s.answered rest (out.map fun b => .data (b.setWidth 32))) := by
  induction out generalizing s i with
  | nil =>
    obtain rfl : s.events = rest := hev
    exact congrArg _ (State.answered_nil s).symm
  | cons b out ih =>
    rw [List.length_cons] at hcap hread hev ⊢
    have hhead : Memory.read s.outBuf i = some b := hread 0 (by omega)
    have htail : ∀ j, j < out.length → Memory.read s.outBuf (i + 1 + j) = out[j]? := fun j hj => by
      simpa [Nat.add_assoc, Nat.add_comm 1] using hread (j + 1) (by omega)
    rw [run_succ _ _ _ (step_outReads hidle (by omega) hhead hev)]
    exact (ih (s := s.answered _ _) (i := i + 1) hidle (Nat.add_right_comm i 1 _ ▸ hcap) htail rfl).trans
      (congrArg _ (State.answered_answered s _ _ [.data (b.setWidth 32)] _))

/-! ### The statements on the host's moves -/

/-- Settles O23: the byte writes, then the write of IN_LEN, which holds the length of every input within IN_CAP. -/
theorem loadPlacesTheInput : Obligations.LoadPlacesTheInput := by
  intro s bs rest hidle hcap hev
  have hin := s.cfg.inCap_le
  rw [hostLoad_eq bs (by omega), List.append_assoc] at hev
  have hrun := (run_hostBytes hidle (by omega) hev 1).trans
    (run_succ _ _ 0 (step_hostWr_inLen (s := (s.writeIn 0 bs).answered _ _) hidle rfl))
  refine ⟨_, hrun, rfl, ⟨?_, hcap, fun i hi => ?_⟩, ?_, rfl, rfl, rfl, rfl, rfl⟩
  · exact Nat.mod_eq_of_lt (by omega : bs.length < 2 ^ 32)
  · have hread := Memory.read_writeBytes s.inBuf 0 bs hi
    rw [Nat.zero_add] at hread
    exact hread
  · rw [List.replicate_succ', ← List.append_assoc]
    rfl

/-- Settles O25: the read of OUT_LEN, then the reads of the result bytes, all of which the invariant gives a value. -/
theorem dumpReadsTheResult : Obligations.DumpReadsTheResult := by
  intro s rest hinv hidle hev
  obtain ⟨out, hlen, hread⟩ := hinv.exists_result hidle
  have hcap : out.length ≤ s.cfg.outCap := hlen ▸ hinv.outLen_le hidle
  have hout := s.cfg.outCap_le
  have hdump := step_hostMove (engineTurn_idle hidle) hev
  rw [hostMove_dump hidle, ← hlen, dumpReads_eq_outReads (by omega)] at hdump
  have hrun := (run_succ _ _ out.length hdump).trans
    (run_outReads (i := 0) hidle (by rw [Nat.zero_add]; exact hcap)
      (fun j hj => by rw [Nat.zero_add]; exact hread j hj) rfl)
  rw [← hlen]
  exact ⟨_, out, hrun, rfl, rfl, hread, List.append_assoc .., rfl, rfl, rfl, rfl, rfl, rfl, rfl, rfl, rfl⟩

/-- Settles O24: the step is the one poll, whether or not it sees DONE. -/
theorem waitPollsUntilDone : Obligations.WaitPollsUntilDone := by
  intro s rest hturn hev
  refine ⟨_, step_hostMove hturn hev, ?_⟩
  rw [hostMove_waitDone]
  exact ⟨rfl, rfl, rfl, rfl, rfl, rfl, rfl, rfl, rfl⟩

/-- Settles O9: the all-zero word selects no command, so its completion step takes IllegalCommand. -/
theorem allZeroWordStartsNoConversion : Obligations.AllZeroWordStartsNoConversion := by
  refine ⟨decodeCmd_zero, fun s hturn hcmd => ⟨_, step_illegalWord hturn ?_, failedWith_completeErr s _⟩⟩
  rw [hcmd]; exact decodeCmd_zero

end Sys2Proof.Machine

/-! SUPPORT. The proof of the statement on the alphabet registry (40_alphabet_registry.md): a command whose precheck
fails reads no input byte. -/

namespace Sys2Proof.Machine

/-- A command whose precheck fails completes with that error, whatever IN holds (R194, R197). -/
theorem exec_of_precheck_error {s : State} {i : Instr} {e : ErrorKind}
    (h : precheck s.cfg s.inLen i.alph = .error e) : exec i s = .next (s.completeErr e) :=
  (exec_next_iff ..).2 ⟨.err e, by rw [evaluate, h], rfl⟩

/-- Settles O32: a tag of 4..15 fails the precheck, which comes before IN_LEN and IN are looked at. -/
theorem badTagCompletesWithInvalidAlphabet : Obligations.BadTagCompletesWithInvalidAlphabet := by
  intro s i htag
  have hexec : exec i s = .next (s.completeErr .invalidAlphabet) :=
    exec_of_precheck_error (precheck_bad_tag s.cfg s.inLen htag)
  exact ⟨_, hexec, failedWith_completeErr s .invalidAlphabet⟩

end Sys2Proof.Machine

/-! SUPPORT. The proofs of the statements on the checksum unit (41_checksum_unit.md), with the lemmas they need: the
length of a padded message, the words of a block, and the recurrence the message schedule keeps. -/

namespace Sys2Proof.Machine

/-! ### Padding and blocks (R119, R120, R121) -/

/-- The padded message fills exactly the blocks R120 counts. -/
@[simp] theorem length_shaPad (m : List Byte) : (shaPad m).length = 64 * shaBlockCount m.length := by
  simp only [shaPad, shaBlockCount, List.length_append, List.length_cons, List.length_replicate, length_beBytes]
  omega

theorem shaBlocks_one {b : List Byte} (h : b.length = 64) : shaBlocks 1 b = [b] := by
  simp only [shaBlocks, List.take_of_length_le h.le]

/-- The padding of a message of 32 bytes (R121): the bit length is 256. -/
theorem shaPad_of_length_32 {m : List Byte} (h : m.length = 32) :
    shaPad m = m ++ [0x80] ++ List.replicate 23 0x00 ++ [0x00, 0x00, 0x00, 0x00, 0x00, 0x00, 0x01, 0x00] := by
  have hbits : beBytes 8 (8 * 32) = [0x00, 0x00, 0x00, 0x00, 0x00, 0x00, 0x01, 0x00] := by decide
  rw [shaPad, h, hbits, List.append_cons m]

/-- Settles O55: the number of zero bytes is the model's (55 - L) mod 64, and a digest's padding is one block. -/
theorem paddedMessageIsWholeBlocks : Obligations.PaddedMessageIsWholeBlocks := by
  refine ⟨fun m => ⟨(119 - m.length % 64) % 64, Nat.mod_lt _ (by omega), ?_, by omega, length_shaPad m⟩,
    fun h1 hlen => ?_⟩
  · rw [shaPad, List.append_cons m]
  · have hcount : shaBlockCount h1.length = 1 := by rw [hlen]; rfl
    rw [hcount, shaBlocks_one (by rw [length_shaPad, hcount]), shaPad_of_length_32 hlen]

/-! ### The words of a block (R118, R125) -/

theorem length_shaWords : ∀ b : List Byte, (shaWords b).length = b.length / 4
  | b0 :: b1 :: b2 :: b3 :: rest => by simp only [shaWords, List.length_cons, length_shaWords rest]; omega
  | [] | [_] | [_, _] | [_, _, _] => by simp [shaWords]

/-- Word t of a block is its bytes 4t..4t+3, big-endian (R125). -/
theorem getElem?_shaWords {b : List Byte} {t : Nat} (ht : t < (shaWords b).length) :
    (shaWords b)[t]? =
      some (wordOf (b.getD (4 * t) 0) (b.getD (4 * t + 1) 0) (b.getD (4 * t + 2) 0) (b.getD (4 * t + 3) 0)) := by
  induction b using shaWords.induct generalizing t with
  | case1 b0 b1 b2 b3 rest ih =>
    cases t with
    | zero => rfl
    | succ t => exact ih (Nat.lt_of_succ_lt_succ ht)
  | case2 b hshort => simp [shaWords] at ht

/-! ### The recurrence of the schedule (R125) -/

/-- W[t] by R125's recurrence, from the words before it in W, W[0] first. -/
def scheduleWord (W : List Word) (t : Nat) : Word :=
  shaSsig1 (W.getD (t - 2) 0) + W.getD (t - 7) 0 + shaSsig0 (W.getD (t - 15) 0) + W.getD (t - 16) 0

/-- Every word of W from the seventeenth on is the one R125's recurrence gives. -/
def FollowsRecurrence (W : List Word) : Prop := ∀ t, 16 ≤ t → t < W.length → W[t]? = some (scheduleWord W t)

/-- The recurrence looks only at words before W[t], so words added behind them leave W[t] as it is. -/
theorem scheduleWord_append {W : List Word} {t : Nat} (V : List Word) (ht : 16 ≤ t) (hle : t ≤ W.length) :
    scheduleWord (W ++ V) t = scheduleWord W t := by
  have hback : ∀ k, 0 < k → (W ++ V).getD (t - k) 0 = W.getD (t - k) 0 :=
    fun k hk => List.getD_append _ _ _ _ (by omega)
  simp only [scheduleWord, hback _ (Nat.succ_pos _)]

theorem FollowsRecurrence.append_scheduleWord {W : List Word} (hW : FollowsRecurrence W) :
    FollowsRecurrence (W ++ [scheduleWord W W.length]) := by
  intro t ht hlt
  rw [List.length_append, List.length_singleton] at hlt
  rw [scheduleWord_append _ ht (by omega)]
  rcases Nat.lt_succ_iff_lt_or_eq.1 hlt with hold | rfl
  · rw [List.getElem?_append_left hold, hW t ht hold]
  · exact List.getElem?_concat_length

/-- One more word: shaExtend, whose list is newest first, adds R125's next word. -/
theorem shaExtend_succ_reverse (n : Nat) {W : List Word} (hW : 16 ≤ W.length) :
    shaExtend (n + 1) W.reverse = shaExtend n (W ++ [scheduleWord W W.length]).reverse := by
  have hback : ∀ i, i < 16 → W.reverse.getD i 0 = W.getD (W.length - (1 + i)) 0 :=
    fun i hi => by rw [List.getD_reverse i (by omega), Nat.sub_sub]
  rw [shaExtend, List.reverse_append, List.reverse_singleton, List.singleton_append, scheduleWord,
    hback 1 (by omega), hback 6 (by omega), hback 14 (by omega), hback 15 (by omega)]

@[simp] theorem length_shaExtend (n : Nat) (w : List Word) : (shaExtend n w).length = w.length + n := by
  induction n generalizing w with
  | zero => rfl
  | succ n ih => rw [shaExtend, ih, List.length_cons]; omega

/-- The words given stay the oldest words of the schedule. -/
theorem suffix_shaExtend (n : Nat) (w : List Word) : w <:+ shaExtend n w := by
  induction n generalizing w with
  | zero => exact List.suffix_rfl
  | succ n ih => exact (List.suffix_cons _ w).trans (ih _)

theorem FollowsRecurrence.reverse_shaExtend (n : Nat) {W : List Word} (hlen : 16 ≤ W.length)
    (hW : FollowsRecurrence W) : FollowsRecurrence (shaExtend n W.reverse).reverse := by
  induction n generalizing W with
  | zero => rwa [shaExtend, List.reverse_reverse]
  | succ n ih =>
    rw [shaExtend_succ_reverse n hlen]
    exact ih (by rw [List.length_append]; omega) hW.append_scheduleWord

/-! ### The schedule of a block -/

theorem length_shaSchedule (block : List Byte) : (shaSchedule block).length = (shaWords block).length + 48 := by
  rw [shaSchedule, List.length_reverse, length_shaExtend, List.length_reverse]

/-- The schedule begins with the words of its block (R125). -/
theorem shaWords_isPrefix_shaSchedule (block : List Byte) : shaWords block <+: shaSchedule block := by
  simpa only [shaSchedule, List.reverse_reverse] using (suffix_shaExtend 48 (shaWords block).reverse).reverse

/-- A block has sixteen words, so its schedule is R125's recurrence from the seventeenth on. -/
theorem followsRecurrence_shaSchedule {block : List Byte} (h : (shaWords block).length = 16) :
    FollowsRecurrence (shaSchedule block) := by
  have hwords : FollowsRecurrence (shaWords block) := fun t ht hlt => by omega
  exact hwords.reverse_shaExtend 48 h.ge

/-- Settles O56: the schedule begins with the block's words, and every extension step keeps the recurrence. -/
theorem scheduleFollowsTheRecurrence : Obligations.ScheduleFollowsTheRecurrence := by
  intro block hblock
  have hwords : (shaWords block).length = 16 := by rw [length_shaWords, hblock]
  have hlen : (shaSchedule block).length = 64 := by rw [length_shaSchedule, hwords]
  refine ⟨hlen, fun t ht => ?_, fun t h16 h64 => followsRecurrence_shaSchedule hwords t h16 (hlen ▸ h64)⟩
  have hin : t < (shaWords block).length := hwords ▸ ht
  obtain ⟨V, hV⟩ := shaWords_isPrefix_shaSchedule block
  rw [← hV, List.getElem?_append_left hin, getElem?_shaWords hin]

end Sys2Proof.Machine

/-! SUPPORT. The proofs of the statements on the base converter (42_base_converter.md), with the lemmas they need:
digits and values, leading runs, the symbols of a row, what each direction keeps, and the datapaths' passes. -/

namespace Sys2Proof.Machine

/-! ### Digits and values (R17, R137, R147) -/

theorem digitsLe_eq_digits {base : Nat} (hb : 2 ≤ base) (v : Nat) : digitsLe base v = Nat.digits base v := by
  induction v using Nat.strong_induction_on with
  | _ v ih =>
    rcases Nat.eq_zero_or_pos v with rfl | hv
    · rw [digitsLe_zero, Nat.digits_zero]
    · rw [digitsLe_pos hb hv.ne', Nat.digits_def' hb hv, ih _ (Nat.div_lt_self hv hb)]

theorem beNat_eq_ofDigits (b : List Byte) : beNat b = Nat.ofDigits 256 (b.reverse.map BitVec.toNat) := by
  induction b using List.reverseRecOn with
  | nil => rfl
  | append_singleton b x ih =>
    rw [beNat_append_singleton, ih, List.reverse_concat, List.map_cons, Nat.ofDigits_cons]
    omega

theorem foldDigits_eq_ofDigits (ds : List Nat) : foldDigits ds = Nat.ofDigits 58 ds.reverse := by
  induction ds using List.reverseRecOn with
  | nil => rfl
  | append_singleton ds d ih =>
    rw [foldDigits_append_singleton, ih, List.reverse_concat, Nat.ofDigits_cons]
    omega

/-- Digits that do not begin with a zero, most significant first, are the digits of their value. -/
theorem reverse_digitsLe_ofDigits {base : Nat} (hb : 2 ≤ base) {ds : List Nat} (hlt : ∀ d ∈ ds, d < base)
    (hhead : ds.head? ≠ some 0) : (digitsLe base (Nat.ofDigits base ds.reverse)).reverse = ds := by
  have hlast : ∀ h : ds.reverse ≠ [], ds.reverse.getLast h ≠ 0 := fun h h0 =>
    hhead (by rw [← List.getLast?_reverse, List.getLast?_eq_some_getLast h, h0])
  rw [digitsLe_eq_digits hb, Nat.digits_ofDigits base hb _ (fun d hd => hlt d (List.mem_reverse.1 hd)) hlast,
    List.reverse_reverse]

/-- The most significant digit of a value is not zero (R137). -/
theorem head?_reverse_digitsLe_ne {base : Nat} (hb : 2 ≤ base) (v : Nat) :
    (digitsLe base v).reverse.head? ≠ some 0 := by
  rw [digitsLe_eq_digits hb, List.head?_reverse]
  rcases eq_or_ne v 0 with rfl | hv
  · simp
  · rw [List.getLast?_eq_some_getLast (Nat.digits_ne_nil_iff_ne_zero.2 hv)]
    exact fun h => Nat.getLast_digit_ne_zero base hv (Option.some.inj h)

theorem lt_of_mem_digits58Be {v d : Nat} (h : d ∈ digits58Be v) : d < 58 :=
  digitsLe_lt (by norm_num) v d (List.mem_reverse.1 h)

@[simp] theorem foldDigits_digits58Be (v : Nat) : foldDigits (digits58Be v) = v := by
  rw [foldDigits_eq_ofDigits, digits58Be, List.reverse_reverse, digitsLe_eq_digits (by norm_num), Nat.ofDigits_digits]

theorem digits58Be_foldDigits {ds : List Nat} (hlt : ∀ d ∈ ds, d < 58) (hhead : ds.head? ≠ some 0) :
    digits58Be (foldDigits ds) = ds := by
  rw [foldDigits_eq_ofDigits, digits58Be, reverse_digitsLe_ofDigits (by norm_num) hlt hhead]

/-- The bytes of be_bytes_min as numbers. -/
theorem map_toNat_beBytesMin (v : Nat) : (beBytesMin v).map BitVec.toNat = (digitsLe 256 v).reverse := by
  have hbyte : ∀ d ∈ (digitsLe 256 v).reverse, (BitVec.ofNat 8 d).toNat = d := fun d hd =>
    BitVec.toNat_ofNat d 8 ▸ Nat.mod_eq_of_lt (digitsLe_lt (by norm_num) v d (List.mem_reverse.1 hd))
  rw [beBytesMin, List.map_map]
  exact (List.map_congr_left hbyte).trans (List.map_id _)

@[simp] theorem beNat_beBytesMin (v : Nat) : beNat (beBytesMin v) = v := by
  rw [beNat_eq_ofDigits, List.map_reverse, map_toNat_beBytesMin, List.reverse_reverse,
    digitsLe_eq_digits (by norm_num), Nat.ofDigits_digits]

theorem beBytesMin_beNat {b : List Byte} (hhead : b.head? ≠ some 0x00) : beBytesMin (beNat b) = b := by
  have hdigits : (digitsLe 256 (beNat b)).reverse = b.map BitVec.toNat := by
    rw [beNat_eq_ofDigits, List.map_reverse]
    refine reverse_digitsLe_ofDigits (by norm_num) (fun d hd => ?_) fun h => ?_
    · obtain ⟨x, -, rfl⟩ := List.mem_map.1 hd
      exact x.isLt
    · obtain ⟨x, hx, hx0⟩ := Option.map_eq_some_iff.1 (List.head?_map ▸ h)
      exact hhead (hx.trans (congrArg some (BitVec.eq_of_toNat_eq hx0)))
  rw [beBytesMin, hdigits, List.map_map]
  exact List.map_id'' (fun x => (BitVec.ofNat_toNat 8 x).trans (BitVec.setWidth_eq x)) b

theorem head?_beBytesMin_ne (v : Nat) : (beBytesMin v).head? ≠ some 0x00 := by
  intro h
  have hdigit : (digitsLe 256 v).reverse.head? = some 0 := by rw [← map_toNat_beBytesMin, List.head?_map, h]; rfl
  exact head?_reverse_digitsLe_ne (by norm_num) v hdigit

/-! ### Leading runs (R138, R142, R146) -/

theorem leadingCount_of_head?_ne {z : Byte} {b : List Byte} (h : b.head? ≠ some z) : leadingCount z b = 0 := by
  cases b with
  | nil => rfl
  | cons c b => rw [leadingCount_cons, if_neg fun hc => h (congrArg some hc)]

theorem leadingCount_replicate_append {z : Byte} {b : List Byte} (n : Nat) (h : b.head? ≠ some z) :
    leadingCount z (List.replicate n z ++ b) = n := by
  induction n with
  | zero => exact leadingCount_of_head?_ne h
  | succ n ih => rw [List.replicate_succ, List.cons_append, leadingCount_cons, if_pos rfl, ih]

/-- Every sequence is its leading run and a rest that does not begin with the run's element. -/
theorem eq_leadingRun_append (z : Byte) (b : List Byte) :
    ∃ r, b = List.replicate (leadingCount z b) z ++ r ∧ r.head? ≠ some z := by
  induction b with
  | nil => exact ⟨[], rfl, by simp⟩
  | cons c b ih =>
    rw [leadingCount_cons]
    split
    next hc =>
      obtain ⟨r, hr, hhead⟩ := ih
      exact ⟨r, by rw [hc, List.replicate_succ, List.cons_append, ← hr], hhead⟩
    next hc => exact ⟨c :: b, rfl, fun h => hc (Option.some.inj h)⟩

@[simp] theorem beNat_replicate_zero_append (n : Nat) (b : List Byte) :
    beNat (List.replicate n 0x00 ++ b) = beNat b := by
  induction n with
  | zero => rfl
  | succ n ih => exact ih

@[simp] theorem foldDigits_replicate_zero_append (n : Nat) (ds : List Nat) :
    foldDigits (List.replicate n 0 ++ ds) = foldDigits ds := by
  induction n with
  | zero => rfl
  | succ n ih => exact ih

/-- A byte sequence is its leading zeros and the shortest bytes of its value. -/
theorem replicate_append_beBytesMin (b : List Byte) :
    List.replicate (leadingCount 0x00 b) 0x00 ++ beBytesMin (beNat b) = b := by
  obtain ⟨r, hr, hhead⟩ := eq_leadingRun_append 0x00 b
  have hval : beNat b = beNat r := by rw [hr, beNat_replicate_zero_append]
  rw [hval, beBytesMin_beNat hhead, ← hr]

/-! ### The symbols of a row (R97, R98, R101) -/

theorem symbol_idxOf {row : List Byte} {c : Byte} (h : c ∈ row) : symbol row (row.idxOf c) = c := by
  rw [symbol, List.getD_eq_getElem _ _ (List.idxOf_lt_length_of_mem h), List.getElem_idxOf]

@[simp] theorem idxOf_zeroSymbol (row : List Byte) : row.idxOf (zeroSymbol row) = 0 := by
  cases row with
  | nil => rfl
  | cons c row => exact List.idxOf_cons_self

section
variable {row : List Byte} (hrow : rowOk row = true)
include hrow

theorem idxOf_lt {c : Byte} (h : c ∈ row) : row.idxOf c < 58 :=
  ((rowOk_iff row).1 hrow).1 ▸ List.idxOf_lt_length_of_mem h

theorem symbol_mem {d : Nat} (hd : d < 58) : symbol row d ∈ row := by
  have hlen : d < row.length := ((rowOk_iff row).1 hrow).1.symm ▸ hd
  rw [symbol, List.getD_eq_getElem _ _ hlen]
  exact List.getElem_mem hlen

theorem idxOf_symbol {d : Nat} (hd : d < 58) : row.idxOf (symbol row d) = d := by
  obtain ⟨hlen, hnodup⟩ := (rowOk_iff row).1 hrow
  rw [symbol, List.getD_eq_getElem _ _ (hlen.symm ▸ hd), hnodup.idxOf_getElem]

theorem map_idxOf_map_symbol {ds : List Nat} (h : ∀ d ∈ ds, d < 58) :
    (ds.map (symbol row)).map row.idxOf = ds := by
  rw [List.map_map]
  exact (List.map_congr_left fun d hd => idxOf_symbol hrow (h d hd)).trans (List.map_id _)

/-- The symbols of a value's digits do not begin with the zero-digit symbol (R142). -/
theorem head?_map_symbol_digits58Be_ne (v : Nat) :
    ((digits58Be v).map (symbol row)).head? ≠ some (zeroSymbol row) := by
  intro h
  rw [List.head?_map] at h
  obtain ⟨d, hd, hsym⟩ := Option.map_eq_some_iff.1 h
  have hd0 : d = 0 := by
    rw [← idxOf_symbol hrow (lt_of_mem_digits58Be (List.mem_of_head? hd)), hsym, idxOf_zeroSymbol]
  exact head?_reverse_digitsLe_ne (by norm_num) v (hd0 ▸ hd)

end

theorem map_symbol_map_idxOf {row t : List Byte} (h : ∀ c ∈ t, c ∈ row) : (t.map row.idxOf).map (symbol row) = t := by
  rw [List.map_map]
  exact (List.map_congr_left fun c hc => symbol_idxOf (h c hc)).trans (List.map_id _)

/-! ### What the decode direction answers (R145, R148) -/

/-- The value of a text: its symbols' digits, folded (R147). -/
def textValue (row t : List Byte) : Nat := foldDigits (t.map row.idxOf)

theorem textValue_replicate_zeroSymbol_append (row : List Byte) (n : Nat) (t : List Byte) :
    textValue row (List.replicate n (zeroSymbol row) ++ t) = textValue row t := by
  rw [textValue, List.map_append, List.map_replicate, idxOf_zeroSymbol, foldDigits_replicate_zero_append, textValue]

/-- A byte that is no symbol raises InvalidCharacter (R145). -/
theorem fromBase58_eq_none {row t : List Byte} {c : Byte} (hc : c ∈ t) (hrow : c ∉ row) : fromBase58 row t = none := by
  rw [fromBase58, textDigits_eq, if_neg fun h => hrow (h c hc)]

/-- A text of symbols decodes to its leading zeros and the shortest bytes of its value; the leading symbols do not
change the value (R148). -/
theorem fromBase58_eq_some {row t : List Byte} (h : ∀ c ∈ t, c ∈ row) :
    fromBase58 row t =
      some (List.replicate (leadingCount (zeroSymbol row) t) 0x00 ++ beBytesMin (textValue row t)) := by
  obtain ⟨r, hr, -⟩ := eq_leadingRun_append (zeroSymbol row) t
  have hdigits : t.map row.idxOf = List.replicate (leadingCount (zeroSymbol row) t) 0 ++ r.map row.idxOf := by
    conv_lhs => rw [hr]
    rw [List.map_append, List.map_replicate, idxOf_zeroSymbol]
  have hdrop : foldDigits ((t.map row.idxOf).drop (leadingCount (zeroSymbol row) t)) = textValue row t := by
    rw [textValue, hdigits, foldDigits_replicate_zero_append, List.drop_left' List.length_replicate]
  rw [fromBase58, textDigits_eq, if_pos h]
  simp only [hdrop]

theorem forall_mem_of_fromBase58 {row t b : List Byte} (h : fromBase58 row t = some b) : ∀ c ∈ t, c ∈ row := by
  intro c hc
  by_contra hrow
  rw [fromBase58_eq_none hc hrow] at h
  cases h

/-! ### Each direction keeps the value and the leading run (R139, R148) -/

section
variable {row : List Byte} (hrow : rowOk row = true)
include hrow

theorem leadingCount_toBase58 (b : List Byte) : leadingCount (zeroSymbol row) (toBase58 row b) = leadingCount 0x00 b :=
  leadingCount_replicate_append _ (head?_map_symbol_digits58Be_ne hrow _)

theorem textValue_toBase58 (b : List Byte) : textValue row (toBase58 row b) = beNat b := by
  rw [toBase58, textValue_replicate_zeroSymbol_append, textValue,
    map_idxOf_map_symbol hrow fun _ => lt_of_mem_digits58Be, foldDigits_digits58Be]

theorem mem_row_of_mem_toBase58 {b : List Byte} {c : Byte} (h : c ∈ toBase58 row b) : c ∈ row := by
  rcases List.mem_append.1 h with h | h
  · exact List.eq_of_mem_replicate h ▸ symbol_mem hrow (by norm_num)
  · obtain ⟨d, hd, rfl⟩ := List.mem_map.1 h
    exact symbol_mem hrow (lt_of_mem_digits58Be hd)

/-- A text of symbols is its leading zero-digit symbols and the symbols of its value's digits. -/
theorem replicate_append_symbols {t : List Byte} (h : ∀ c ∈ t, c ∈ row) :
    List.replicate (leadingCount (zeroSymbol row) t) (zeroSymbol row) ++
      (digits58Be (textValue row t)).map (symbol row) = t := by
  obtain ⟨r, hr, hhead⟩ := eq_leadingRun_append (zeroSymbol row) t
  have hmem : ∀ c ∈ r, c ∈ row := fun c hc => h c (hr ▸ List.mem_append_right _ hc)
  have hval : textValue row t = foldDigits (r.map row.idxOf) := by
    rw [hr, textValue_replicate_zeroSymbol_append, textValue]
  have hlt : ∀ d ∈ r.map row.idxOf, d < 58 := fun d hd => by
    obtain ⟨c, hc, rfl⟩ := List.mem_map.1 hd
    exact idxOf_lt hrow (hmem c hc)
  have hhead0 : (r.map row.idxOf).head? ≠ some 0 := fun h0 => by
    obtain ⟨c, hc, hc0⟩ := Option.map_eq_some_iff.1 (List.head?_map ▸ h0)
    exact hhead (hc.trans (by rw [← symbol_idxOf (hmem c (List.mem_of_head? hc)), hc0]; rfl))
  rw [hval, digits58Be_foldDigits hlt hhead0, map_symbol_map_idxOf hmem, ← hr]

end

/-- A text of zero-digit symbols decodes to as many zero bytes (R149). -/
theorem fromBase58_replicate_zeroSymbol {row : List Byte} (hrow : rowOk row = true) (n : Nat) :
    fromBase58 row (List.replicate n (zeroSymbol row)) = some (List.replicate n 0x00) := by
  have hmem : ∀ c ∈ List.replicate n (zeroSymbol row), c ∈ row := fun c hc =>
    List.eq_of_mem_replicate hc ▸ symbol_mem hrow (by norm_num)
  have hcount : leadingCount (zeroSymbol row) (List.replicate n (zeroSymbol row)) = n := by
    rw [← List.append_nil (List.replicate n _), leadingCount_replicate_append n (by simp)]
  have hval : textValue row (List.replicate n (zeroSymbol row)) = 0 := by
    rw [← List.append_nil (List.replicate n _), textValue_replicate_zeroSymbol_append]; rfl
  rw [fromBase58_eq_some hmem, hcount, hval, beBytesMin, digitsLe_zero, List.reverse_nil, List.map_nil,
    List.append_nil]

/-- What a text decodes to has its value and as many leading zeros as it has zero-digit symbols (R146 to R148). -/
theorem beNat_and_leadingCount_of_fromBase58 {row t b : List Byte} (h : fromBase58 row t = some b) :
    beNat b = textValue row t ∧ leadingCount 0x00 b = leadingCount (zeroSymbol row) t := by
  rw [fromBase58_eq_some (forall_mem_of_fromBase58 h)] at h
  obtain rfl := Option.some.inj h
  exact ⟨by rw [beNat_replicate_zero_append, beNat_beBytesMin],
    leadingCount_replicate_append _ (head?_beBytesMin_ne _)⟩

/-! ### The datapaths (R150, R151, R154) -/

/-- A pass over the digits of v gives the digits of v * mul + carry. -/
theorem mulAddPass_digitsLe {mul base : Nat} (hmul : 0 < mul) (hb : 2 ≤ base) (v carry : Nat) :
    mulAddPass mul base (digitsLe base v) carry = digitsLe base (v * mul + carry) := by
  induction v using Nat.strong_induction_on generalizing carry with
  | _ v ih =>
    rcases Nat.eq_zero_or_pos v with rfl | hv
    · rw [digitsLe_zero, mulAddPass, Nat.zero_mul, Nat.zero_add]
    · have hsplit : v * mul + carry = carry + v % base * mul + base * (v / base * mul) := by
        conv_lhs => rw [← Nat.mod_add_div v base]
        ring
      have hpos : v * mul + carry ≠ 0 := by positivity
      rw [digitsLe_pos hb hv.ne', mulAddPass, ih _ (Nat.div_lt_self hv hb), digitsLe_pos hb hpos, hsplit,
        Nat.add_mul_mod_self_left, Nat.add_mul_div_left _ _ (by omega), Nat.add_comm (v / base * mul)]

theorem foldl_mulAddPass_bytes (b : List Byte) :
    b.foldl (fun arr x => mulAddPass 256 58 arr x.toNat) [] = digitsLe 58 (beNat b) := by
  induction b using List.reverseRecOn with
  | nil => rw [beNat_nil, digitsLe_zero, List.foldl_nil]
  | append_singleton b x ih =>
    rw [List.foldl_concat, ih, mulAddPass_digitsLe (by norm_num) (by norm_num), beNat_append_singleton]

theorem decodeArray_eq_digitsLe (ds : List Nat) : decodeArray ds = digitsLe 256 (foldDigits ds) := by
  rw [decodeArray]
  induction ds using List.reverseRecOn with
  | nil => rw [foldDigits_nil, digitsLe_zero, List.foldl_nil]
  | append_singleton ds d ih =>
    rw [List.foldl_concat, ih, mulAddPass_digitsLe (by norm_num) (by norm_num), foldDigits_append_singleton]

/-- What is left of the carry after an element is again below mul. -/
theorem passCarry_lt {mul base carry d : Nat} (hc : carry < mul) (hd : d < base) : carry + d * mul < mul * base := by
  have : (d + 1) * mul ≤ base * mul := Nat.mul_le_mul_right mul hd
  linarith

theorem lt_of_mem_passCarries {mul base : Nat} (hb : 0 < base) {arr : List Nat} {carry : Nat}
    (harr : ∀ d ∈ arr, d < base) (hc : carry < mul) : ∀ c ∈ passCarries mul base arr carry, c < mul * base := by
  have hstart : carry < mul * base := hc.trans_le (Nat.le_mul_of_pos_right mul hb)
  induction arr generalizing carry with
  | nil => simpa [passCarries] using hstart
  | cons d arr ih =>
    obtain ⟨hd, harr⟩ := List.forall_mem_cons.1 harr
    have hsum := passCarry_lt hc hd
    have hrest : (carry + d * mul) / base < mul := (Nat.div_lt_iff_lt_mul hb).2 hsum
    simp only [passCarries, List.forall_mem_cons]
    exact ⟨hstart, hsum, ih harr hrest (hrest.trans_le (Nat.le_mul_of_pos_right mul hb))⟩

/-- A pass leaves digits of the array's base. -/
theorem lt_of_mem_mulAddPass {mul base : Nat} (hb : 2 ≤ base) (arr : List Nat) (carry : Nat) :
    ∀ d ∈ mulAddPass mul base arr carry, d < base := by
  induction arr generalizing carry with
  | nil => exact digitsLe_lt hb carry
  | cons d arr ih => exact List.forall_mem_cons.2 ⟨Nat.mod_lt _ (by omega), ih _⟩

/-! ### The decode commands -/

/-- A command whose own part answers an error completes with it (R197). -/
theorem exec_ready_failed {s : State} {input : List Byte} {i : Instr} {a : Alphabet} {e : ErrorKind}
    (h : Ready s input) (hi : i.alph = a.tag) (he : ownPart i (s.cfg.alphabets.row a) input = .err e) :
    ∃ t, exec i s = .next t ∧ FailedWith s t (statusFailure e) :=
  ⟨_, exec_ready h a i hi, he ▸ failedWith_completeErr s e⟩

/-- No decode command answers more bytes than its input has (R149). -/
theorem length_ownPart_decode_le {row input out : List Byte} {ver : Byte} {i : Instr} (hi : 5 ≤ i.op.toNat)
    (hrow : rowOk row = true) (h : ownPart i row input = .ok out ver) : out.length ≤ input.length := by
  cases i with
  | enc _ _ | encc _ _ | encv _ _ => exact absurd hi (by simp [Instr.op])
  | dec _ _ => exact length_decResult_le hrow h
  | decc _ _ => exact length_deccResult_le hrow h
  | decv _ _ => exact length_decvResult_le hrow h

theorem outLen_complete_ok_le (s : State) (out : List Byte) (ver : Byte) :
    (s.complete (.ok out ver)).outLen.toNat ≤ out.length := by
  calc (BitVec.ofNat 32 out.length).toNat = out.length % 2 ^ 32 := BitVec.toNat_ofNat ..
    _ ≤ out.length := Nat.mod_le ..

theorem inCap_le_outCap (c : Config) : c.inCap ≤ c.outCap := by
  have := c.outMin_le
  rw [outMin] at this
  omega

/-- A command that succeeds has passed its prechecks, and its result is its own part's on the input (R194, R198). -/
theorem exists_input_of_evaluate_ok {cfg : Config} {inLen : Word} {inBuf : Memory} {alph : BitVec 4}
    {body : List Byte → List Byte → Result} {out : List Byte} {ver : Byte}
    (h : evaluate cfg inLen inBuf alph body = some (.ok out ver)) :
    ∃ a input, alph = a.tag ∧ inLen.toNat ≤ cfg.inCap ∧ input.length = inLen.toNat ∧
      body (cfg.alphabets.row a) input = .ok out ver := by
  rcases evaluate_cases cfg inLen inBuf alph body with
    ⟨-, e⟩ | ⟨-, -, e⟩ | ⟨-, -, -, e⟩ | ⟨a, input, htag, hcap, -, hlen, e⟩ <;> rw [e] at h
  · cases h
  · cases h
  · cases h
  · exact ⟨a, input, htag, hcap, hlen, Option.some.inj h⟩

/-- No decode command leaves an OUT_LEN above its input's length, which is then within IN_CAP, failed ones included. -/
theorem outLen_exec_decode_le {i : Instr} {s t : State} (hi : 5 ≤ i.op.toNat) (h : exec i s = .next t) :
    t.outLen.toNat ≤ s.inLen.toNat ∧ t.outLen.toNat ≤ s.cfg.inCap := by
  obtain ⟨r, hr, rfl⟩ := (exec_next_iff i s t).1 h
  cases r with
  | err e => exact ⟨Nat.zero_le _, Nat.zero_le _⟩
  | ok out ver =>
    obtain ⟨a, input, -, hcap, hlen, hown⟩ := exists_input_of_evaluate_ok hr
    have hout := length_ownPart_decode_le hi (s.cfg.row_ok a) hown
    have hle := outLen_complete_ok_le s out ver
    omega

/-! ### The statements -/

/-- Settles O34: the text does not decode, which each decode command tests first. -/
theorem badByteCompletesWithInvalidCharacter : Obligations.BadByteCompletesWithInvalidCharacter := by
  intro s input a ver c hready hc hrow
  have hnone : fromBase58 (s.cfg.alphabets.row a) input = none := fromBase58_eq_none hc hrow
  have hstatus : statusFailure .invalidCharacter = 0x00000206 := by decide
  rw [← hstatus]
  exact ⟨exec_ready_failed hready rfl (by rw [ownPart, decResult, hnone]),
    exec_ready_failed hready rfl (by rw [ownPart, deccResult, hnone]),
    exec_ready_failed hready rfl (by rw [ownPart, decvResult, hnone])⟩

/-- Settles O44: the encoding keeps the leading run and the value, and the decoding rebuilds the bytes from the two. -/
theorem decodingAnEncodingGivesItBack : Obligations.DecodingAnEncodingGivesItBack := by
  intro row hrow b
  rw [fromBase58_eq_some fun _ => mem_row_of_mem_toBase58 hrow, leadingCount_toBase58 hrow, textValue_toBase58 hrow,
    replicate_append_beBytesMin]

/-- Settles O45: the decoding keeps the leading run and the value, and the encoding rebuilds the text from the two. -/
theorem encodingADecodingGivesItBack : Obligations.EncodingADecodingGivesItBack := by
  intro row hrow t ht
  refine ⟨_, fromBase58_eq_some ht, ?_⟩
  obtain ⟨hval, hcount⟩ := beNat_and_leadingCount_of_fromBase58 (fromBase58_eq_some ht)
  rw [toBase58, hval, hcount, replicate_append_symbols hrow ht]

/-- Settles O46: n bytes are a number below 256 ^ n, and log58(256) < 1.38. -/
theorem encodedLengthIsBounded : Obligations.EncodedLengthIsBounded :=
  fun row b => length_toBase58_le row b

/-- Settles O47: the bound on a decoding; a run of zero-digit symbols has value 0; and what a decode command leaves in
OUT_LEN. -/
theorem decodedLengthIsBounded : Obligations.DecodedLengthIsBounded := by
  intro row hrow
  refine ⟨fun t b => length_fromBase58_le hrow,
    fun n => ⟨_, fromBase58_replicate_zeroSymbol hrow n, List.length_replicate⟩, fun i s t hi h => ?_⟩
  obtain ⟨hlen, hcap⟩ := outLen_exec_decode_le hi h
  exact ⟨hlen, hcap, inCap_le_outCap s.cfg⟩

/-- Settles O49: neither the run nor the value of the rest changes when zeros are put before it. -/
theorem leadingZerosPassThrough : Obligations.LeadingZerosPassThrough := by
  intro row hrow z b hhead
  have hvalue : toBase58 row b = (digits58Be (beNat b)).map (symbol row) := by
    rw [toBase58, leadingCount_of_head?_ne hhead, List.replicate_zero, List.nil_append]
  rw [hvalue]
  refine ⟨?_, head?_map_symbol_digits58Be_ne hrow _⟩
  rw [toBase58, leadingCount_replicate_append z hhead, beNat_replicate_zero_append]

/-- Settles O50: the model's digits are Mathlib's, and so is the value of the bytes. -/
theorem encodingIsTheBase58Expansion : Obligations.EncodingIsTheBase58Expansion := by
  intro row b
  rw [toBase58, digits58Be, digitsLe_eq_digits (by norm_num), beNat_eq_ofDigits]
  rfl

/-- Settles O51: the decoding keeps both, and the model's folds are Mathlib's values of the digits. -/
theorem decodingHasTheValueOfTheText : Obligations.DecodingHasTheValueOfTheText := by
  intro row _ t b h
  obtain ⟨hval, hcount⟩ := beNat_and_leadingCount_of_fromBase58 h
  rw [beNat_eq_ofDigits, textValue, foldDigits_eq_ofDigits, ← List.map_reverse] at hval
  exact ⟨hval, hcount⟩

/-- Settles O52: each pass takes the digits of a value to those of value * 256 + byte. -/
theorem encodeDatapathComputesTheDigits : Obligations.EncodeDatapathComputesTheDigits := by
  intro b
  rw [encodeArray, foldl_mulAddPass_bytes, beNat_drop_leadingZeros, digits58Be]

/-- Settles O53: each pass takes the bytes of a value to those of value * 58 + digit. Neither hypothesis is needed: a
leading zero digit leaves the empty array empty, and the carry is written out in full whatever the digit. -/
theorem decodeDatapathComputesTheBytes : Obligations.DecodeDatapathComputesTheBytes := by
  intro ds _ _
  rw [decodeArray_eq_digitsLe]
  exact ⟨rfl, digitsLe_lt (by norm_num) _⟩

/-- Settles O54: the carry stays below 256 * 58 = 14848 in both datapaths. -/
theorem datapathCarryFitsFourteenBits : Obligations.DatapathCarryFitsFourteenBits := by
  refine ⟨fun arr x harr => ⟨fun c hc => ?_, lt_of_mem_mulAddPass (by norm_num) arr x.toNat⟩,
    fun arr d harr hd => ⟨fun c hc => ?_, lt_of_mem_mulAddPass (by norm_num) arr d⟩⟩
  · exact Nat.le_of_lt_succ (lt_of_mem_passCarries (by norm_num) harr x.isLt c hc)
  · exact Nat.le_of_lt_succ (lt_of_mem_passCarries (by norm_num) harr hd c hc)

end Sys2Proof.Machine

/-! SUPPORT. The proofs of the statements on the encode commands (43_encode_commands.md), with the lemmas they need: how
long a result is and how a successful command completes, what a decode command answers for an encoded text, and the way
from an encode command over the copy to the matching decode command. -/

namespace Sys2Proof.Machine

/-! ### The length of a result (R163) -/

/-- No command leaves an OUT_LEN above OUT_MIN of its input's length or of IN_CAP, failed ones included. -/
theorem outLen_exec_le {i : Instr} {s t : State} (h : exec i s = .next t) :
    t.outLen.toNat ≤ outMin s.inLen.toNat ∧ t.outLen.toNat ≤ outMin s.cfg.inCap := by
  obtain ⟨r, hr, rfl⟩ := (exec_next_iff i s t).1 h
  cases r with
  | err e => exact ⟨Nat.zero_le _, Nat.zero_le _⟩
  | ok out ver =>
    obtain ⟨a, input, -, hcap, hlen, hown⟩ := exists_input_of_evaluate_ok hr
    have hout : (s.complete (.ok out ver)).outLen.toNat ≤ outMin s.inLen.toNat :=
      (outLen_complete_ok_le s out ver).trans (hlen ▸ length_ownPart_le i (s.cfg.row_ok a) hown)
    exact ⟨hout, hout.trans (outMin_mono hcap)⟩

/-- OUT_MIN(n) ≤ c for an input short enough for its text to be copied to a buffer of c bytes (R166). -/
theorem outMin_le_of_short {n c : Nat} (hc : 1 ≤ c) (hn : n + 5 ≤ (c - 1) * 100 / 138) : outMin n ≤ c := by
  rw [outMin]; omega

/-! ### Completing with a result (R196) -/

/-- A command whose own part succeeds completes with what it answers: the result is short enough for OUT_LEN. -/
theorem exec_ready_done {s : State} {input out : List Byte} {ver : Byte} {i : Instr} {a : Alphabet}
    (h : Ready s input) (hi : i.alph = a.tag) (hok : ownPart i (s.cfg.alphabets.row a) input = .ok out ver) :
    ∃ t, exec i s = .next t ∧ DoneWith s t out ver := by
  have hlen : out.length ≤ s.cfg.outCap :=
    length_evaluate_le (i := i) (by rw [evaluate_ready h a, hok])
  have hcap := s.cfg.outCap_le
  exact ⟨_, exec_ready h a i hi, hok ▸ doneWith_completeOk s out ver (by omega)⟩

/-! ### Encode and decode commands against each other (R165, R166) -/

/-- ENCV is ENCC of the payload with the version byte in front (R165). -/
theorem encvResult_eq_enccResult_cons (v : Byte) (row p : List Byte) :
    encvResult v row p = enccResult row (v :: p) := by
  rw [encvResult, enccResult, checksum_some, List.singleton_append]

/-- DECC takes the last four decoded bytes off when they are the tag of the rest (R176). -/
theorem deccResult_of_tagged {row t p : List Byte} (h : fromBase58 row t = some (p ++ checksum p none)) :
    deccResult row t = .ok p 0 := by
  have hlen : (p ++ checksum p none).length - 4 = p.length := by simp
  have hlong : ¬ (p ++ checksum p none).length < 4 := by simp
  simp only [deccResult, h, hlen, if_neg hlong, List.take_left, List.drop_left, ne_eq, not_true_eq_false, if_false]

/-- DECV takes the version off in front and the tag of version and payload behind (R177). -/
theorem decvResult_of_tagged {row t p : List Byte} {v : Byte}
    (h : fromBase58 row t = some (v :: p ++ checksum p (some v))) : decvResult row t = .ok p v := by
  have hlen : (p ++ checksum p (some v)).length - 4 = p.length := by simp
  have hlong : ¬ (p ++ checksum p (some v)).length < 4 := by simp
  rw [List.cons_append] at h
  simp only [decvResult, h, hlen, if_neg hlong, List.take_left, List.drop_left, ne_eq, not_true_eq_false, if_false]

/-- What the host has copied is the input of the next command, when it fits IN (R166). -/
theorem ready_of_copied {s t u : State} {out : List Byte} {ver : Byte} (hdone : DoneWith s t out ver)
    (hcopy : CopiedOutToIn t u) (hfit : t.outLen.toNat ≤ s.cfg.inCap) : u.cfg = s.cfg ∧ Ready u out := by
  obtain ⟨-, hlen, hread, -, -, -, -, hcfg, -⟩ := hdone
  obtain ⟨hcfg', hlen', hread'⟩ := hcopy
  refine ⟨hcfg'.trans hcfg, by rw [hlen', hlen], by rw [hcfg', hcfg, ← hlen]; exact hfit, fun k hk => ?_⟩
  rw [hread' k (hlen ▸ hk), hread]

/-- Two commands whose own parts undo each other give the input back over the copy (R166). -/
theorem exec_exec_of_copied {s t u : State} {b text : List Byte} {x y : Byte} {i j : Instr} {a : Alphabet}
    (hready : Ready s b) (hcopy : CopiedOutToIn t u) (hi : i.alph = a.tag) (hj : j.alph = a.tag)
    (hthere : ownPart i (s.cfg.alphabets.row a) b = .ok text x)
    (hback : ownPart j (s.cfg.alphabets.row a) text = .ok b y)
    (hx : exec i s = .next t) (hfit : t.outLen.toNat ≤ s.cfg.inCap) :
    ∃ r, exec j u = .next r ∧ DoneWith u r b y := by
  obtain ⟨t', hx', hdone⟩ := exec_ready_done hready hi hthere
  obtain rfl := Host.Outcome.next.inj (hx'.symm.trans hx)
  obtain ⟨hcfg, hready'⟩ := ready_of_copied hdone hcopy hfit
  exact exec_ready_done hready' hj (hcfg ▸ hback)

/-! ### The statements -/

/-- Settles O26: to_base58 of the input is ENC's own part. -/
theorem encCompletes : Obligations.EncCompletes :=
  fun _ _ _ _ h => exec_ready_done h rfl (by rw [ownPart, encResult])

/-- Settles O27: ENCC's own part, with the tag written out as the double hash. -/
theorem enccCompletes : Obligations.EnccCompletes :=
  fun _ _ _ _ h => exec_ready_done h rfl (by rw [ownPart, enccResult, checksum_none])

/-- Settles O28: ENCV's own part, which is ENCC's on the version and the input. -/
theorem encvCompletes : Obligations.EncvCompletes :=
  fun _ _ _ _ h =>
    exec_ready_done h rfl (by rw [ownPart, encvResult_eq_enccResult_cons, enccResult, checksum_none])

/-- Settles O48: a command that succeeds reads at most IN_CAP bytes, and a configuration's OUT holds OUT_MIN(IN_CAP). -/
theorem resultsFitTheOutBuffer : Obligations.ResultsFitTheOutBuffer :=
  fun _ s _ h => ⟨(outLen_exec_le h).2, s.cfg.outMin_le⟩

/-- Settles O57: both commands have the same result, which decides all that is observed. -/
theorem versionedEncodeIsChecksummedEncode : Obligations.VersionedEncodeIsChecksummedEncode := by
  intro s s' p v ignored a hcfg hp hvp
  refine ⟨_, _, exec_ready hp a (.encv a.tag v) rfl, exec_ready hvp a (.encc a.tag ignored) rfl, ?_⟩
  rw [ownPart, ownPart, encvResult_eq_enccResult_cons, hcfg]
  exact observe_complete s s' _

/-- Settles O60: the text decodes to the bytes encoded (R152), from which each decode command takes off what its encode
command put around the input; and a short input has a text of at most IN_CAP bytes (R163). -/
theorem machineRoundTrips : Obligations.MachineRoundTrips := by
  intro s t u b a v x y hready hcopy
  have hdecode : ∀ bytes, fromBase58 (s.cfg.alphabets.row a) (toBase58 (s.cfg.alphabets.row a) bytes) = some bytes :=
    decodingAnEncodingGivesItBack _ (s.cfg.row_ok a)
  refine ⟨fun hx hshort => ?_, exec_exec_of_copied hready hcopy rfl rfl rfl ?_,
    exec_exec_of_copied hready hcopy rfl rfl rfl (deccResult_of_tagged (hdecode _)),
    exec_exec_of_copied hready hcopy rfl rfl rfl (decvResult_of_tagged (hdecode _))⟩
  · have hlen : t.outLen.toNat ≤ outMin b.length := by
      rw [← hready.1]
      rcases hx with hx | hx | hx <;> exact (outLen_exec_le hx).1
    exact hlen.trans (outMin_le_of_short s.cfg.inCap_pos hshort)
  · rw [ownPart, decResult, hdecode]

end Sys2Proof.Machine

/-! SUPPORT. The proofs of the statements on the decode commands (44_decode_commands.md), with the lemmas they need:
what each decode command answers for the bytes a text decodes to, which result a completed STATUS tells of, and that
the version field reaches no command but ENCV. -/

namespace Sys2Proof.Machine

/-! ### What the decode commands answer for the bytes decoded (R175 to R179) -/

/-- Four bytes or more are some bytes and a sequence of the length of a tag. -/
theorem exists_append_tag {d : List Byte} (h : 4 ≤ d.length) : ∃ p tag, d = p ++ tag ∧ tag.length = 4 :=
  ⟨d.take (d.length - 4), d.drop (d.length - 4), (List.take_append_drop ..).symm, by rw [List.length_drop]; omega⟩

section
variable {row t d p tag : List Byte} {v : Byte}

/-- DEC answers the bytes decoded (R175). -/
theorem decResult_of_decoded (h : fromBase58 row t = some d) : decResult row t = .ok d 0 := by rw [decResult, h]

/-- DECC refuses fewer than four decoded bytes (R178). -/
theorem deccResult_of_short (h : fromBase58 row t = some d) (hshort : d.length < 4) :
    deccResult row t = .err .tooShort := by
  simp only [deccResult, h, if_pos hshort]

/-- DECV refuses fewer than five decoded bytes (R178). -/
theorem decvResult_of_short (h : fromBase58 row t = some d) (hshort : d.length < 5) :
    decvResult row t = .err .tooShort := by
  cases d with
  | nil => rw [decvResult, h]
  | cons version rest => simp only [decvResult, h, if_pos (Nat.lt_of_succ_lt_succ hshort)]

/-- DECC on four decoded bytes or more compares the last four with the tag of the rest (R176, R179). -/
theorem deccResult_of_append (h : fromBase58 row t = some (p ++ tag)) (htag : tag.length = 4) :
    deccResult row t = if checksum p none = tag then .ok p 0 else .err .checksumMismatch := by
  have hlong : ¬ (p ++ tag).length < 4 := by simp [htag]
  have hsplit : (p ++ tag).length - 4 = p.length := by simp [htag]
  simp only [deccResult, h, if_neg hlong, hsplit, List.take_left, List.drop_left, ne_eq, ite_not]

/-- DECV on five decoded bytes or more compares the last four with the tag of version and payload (R177, R179). -/
theorem decvResult_of_append (h : fromBase58 row t = some (v :: p ++ tag)) (htag : tag.length = 4) :
    decvResult row t = if checksum p (some v) = tag then .ok p v else .err .checksumMismatch := by
  have hlong : ¬ (p ++ tag).length < 4 := by simp [htag]
  have hsplit : (p ++ tag).length - 4 = p.length := by simp [htag]
  rw [List.cons_append] at h
  simp only [decvResult, h, if_neg hlong, hsplit, List.take_left, List.drop_left, ne_eq, ite_not]

/-- DECC is not TooShort from four decoded bytes on (R178). -/
theorem deccResult_ne_tooShort (h : fromBase58 row t = some d) (hlong : 4 ≤ d.length) :
    deccResult row t ≠ .err .tooShort := by
  obtain ⟨p, tag, rfl, htag⟩ := exists_append_tag hlong
  rw [deccResult_of_append h htag]
  split <;> simp

/-- DECV is not TooShort from five decoded bytes on (R178). -/
theorem decvResult_ne_tooShort (h : fromBase58 row t = some d) (hlong : 5 ≤ d.length) :
    decvResult row t ≠ .err .tooShort := by
  cases d with
  | nil => simp at hlong
  | cons version rest =>
    obtain ⟨p, tag, rfl, htag⟩ := exists_append_tag (Nat.le_of_succ_le_succ hlong)
    rw [decvResult_of_append h htag]
    split <;> simp

/-- DECC succeeds on nothing but bytes followed by their tag (R184). -/
theorem decoded_of_deccResult_ok (h : deccResult row t = .ok p v) :
    v = 0 ∧ fromBase58 row t = some (p ++ checksum p none) := by
  cases hd : fromBase58 row t with
  | none => simp [deccResult, hd] at h
  | some d =>
    rcases Nat.lt_or_ge d.length 4 with hshort | hlong
    · simp [deccResult_of_short hd hshort] at h
    · obtain ⟨q, tag, rfl, htag⟩ := exists_append_tag hlong
      rw [deccResult_of_append hd htag] at h
      split at h
      next heq =>
        obtain ⟨rfl, rfl⟩ := Result.ok.inj h
        exact ⟨rfl, by rw [heq]⟩
      next => cases h

/-- DECV succeeds on nothing but a version and bytes followed by the tag of both (R184). -/
theorem decoded_of_decvResult_ok (h : decvResult row t = .ok p v) :
    fromBase58 row t = some (v :: p ++ checksum p (some v)) := by
  cases hd : fromBase58 row t with
  | none => simp [decvResult, hd] at h
  | some d =>
    rcases Nat.lt_or_ge d.length 5 with hshort | hlong
    · simp [decvResult_of_short hd hshort] at h
    · cases d with
      | nil => simp at hlong
      | cons version rest =>
        obtain ⟨q, tag, rfl, htag⟩ := exists_append_tag (Nat.le_of_succ_le_succ hlong)
        rw [decvResult_of_append hd htag] at h
        split at h
        next heq =>
          obtain ⟨rfl, rfl⟩ := Result.ok.inj h
          rw [heq, List.cons_append]
        next => cases h

end

/-! ### Which result a completed STATUS tells of (R196, R197) -/

theorem statusFailure_tooShort : statusFailure .tooShort = 0x00000306 := rfl

/-- Every error kind has a STATUS of its own (R24, R190). -/
theorem statusFailure_eq_iff (e e' : ErrorKind) : statusFailure e = statusFailure e' ↔ e = e' := by
  cases e <;> cases e' <;> decide

theorem statusSuccess_ne_failure (e : ErrorKind) : statusSuccess ≠ statusFailure e := fun h => by
  simpa using congrArg statusFail h

theorem status_complete_eq_failure_iff (s : State) (r : Result) (e : ErrorKind) :
    (s.complete r).status = statusFailure e ↔ r = .err e := by
  cases r with
  | ok out ver => simp [statusSuccess_ne_failure]
  | err e' => simp [statusFailure_eq_iff]

/-- STATUS 0x2 tells of a result, which the state then holds. -/
theorem exists_ok_of_exec_success {s t : State} {input : List Byte} {i : Instr} {a : Alphabet} (h : Ready s input)
    (hi : i.alph = a.tag) (hx : exec i s = .next t) (hst : t.status = statusSuccess) :
    ∃ out ver, ownPart i (s.cfg.alphabets.row a) input = .ok out ver ∧ DoneWith s t out ver := by
  cases hown : ownPart i (s.cfg.alphabets.row a) input with
  | ok out ver =>
    obtain ⟨t', hx', hdone⟩ := exec_ready_done h hi hown
    obtain rfl := Host.Outcome.next.inj (hx'.symm.trans hx)
    exact ⟨out, ver, rfl, hdone⟩
  | err e =>
    obtain ⟨t', hx', hfailed⟩ := exec_ready_failed h hi hown
    obtain rfl := Host.Outcome.next.inj (hx'.symm.trans hx)
    obtain ⟨hstatus, -⟩ := hfailed
    exact absurd (hst.symm.trans hstatus) (statusSuccess_ne_failure e)

/-- A command does not complete with an error that its own part does not answer. -/
theorem status_ne_of_ownPart_ne {s t : State} {input : List Byte} {i : Instr} {a : Alphabet} {e : ErrorKind}
    (h : Ready s input) (hi : i.alph = a.tag) (hne : ownPart i (s.cfg.alphabets.row a) input ≠ .err e)
    (hx : exec i s = .next t) : t.status ≠ statusFailure e := by
  obtain rfl := Host.Outcome.next.inj ((exec_ready h a i hi).symm.trans hx)
  exact mt (status_complete_eq_failure_iff ..).1 hne

/-! ### The tag comparison (R179) -/

/-- Four bytes are the first four of a sequence when they agree element by element. -/
theorem take_four_eq_iff {digest tag : List Byte} (htag : tag.length = 4) :
    digest.take 4 = tag ↔ ∀ k, k < 4 → tag[k]? = digest[k]? := by
  rw [List.ext_getElem?_iff]
  refine forall_congr' fun k => ?_
  by_cases hk : k < 4
  · simp [hk, eq_comm]
  · simp [hk, htag]

/-- A command that compares four bytes with the first four of a digest fails exactly when one of them differs. -/
theorem exec_ready_tagCompared {s : State} {input p tag digest : List Byte} {ver : Byte} {i : Instr} {a : Alphabet}
    (h : Ready s input) (hi : i.alph = a.tag) (htag : tag.length = 4)
    (hown : ownPart i (s.cfg.alphabets.row a) input =
      if digest.take 4 = tag then .ok p ver else .err .checksumMismatch) :
    ∃ t, exec i s = .next t ∧
      ((∃ k, k < 4 ∧ tag[k]? ≠ digest[k]?) → FailedWith s t 0x00000406) ∧
      ((∀ k, k < 4 → tag[k]? = digest[k]?) → DoneWith s t p ver) := by
  by_cases heq : ∀ k, k < 4 → tag[k]? = digest[k]?
  · rw [if_pos ((take_four_eq_iff htag).2 heq)] at hown
    obtain ⟨t, hx, hdone⟩ := exec_ready_done h hi hown
    exact ⟨t, hx, fun ⟨k, hk, hne⟩ => absurd (heq k hk) hne, fun _ => hdone⟩
  · rw [if_neg (mt (take_four_eq_iff htag).1 heq)] at hown
    obtain ⟨t, hx, hfailed⟩ := exec_ready_failed h hi hown
    exact ⟨t, hx, fun _ => hfailed, fun h => absurd h heq⟩

end Sys2Proof.Machine

namespace Sys2Proof

/-! ### The version field (R83, R182) -/

/-- The command with another version operand. -/
def Instr.withVer (v : Byte) : Instr → Instr
  | .enc a _ => .enc a v
  | .encc a _ => .encc a v
  | .encv a _ => .encv a v
  | .dec a _ => .dec a v
  | .decc a _ => .decc a v
  | .decv a _ => .decv a v

@[simp] theorem Instr.alph_withVer (i : Instr) (v : Byte) : (i.withVer v).alph = i.alph := by cases i <;> rfl

/-- Words that agree in RSV, ALPH and OP select the same command but for the version operand, or both none (R82). -/
theorem decodeCmd_of_same_fields {w w' : Word} (hrsv : fieldRsv w' = fieldRsv w) (halph : fieldAlph w' = fieldAlph w)
    (hop : fieldOp w' = fieldOp w) : decodeCmd w' = (decodeCmd w).map (Instr.withVer (fieldVer w')) := by
  simp only [decodeCmd, hrsv, halph, hop]
  split_ifs <;> rfl

/-- Words equal in bits 7:0 and 31:16 agree in RSV, ALPH and OP (R76). -/
theorem fields_eq_of_toNat_eq {w w' : Word} (hlow : w'.toNat % 256 = w.toNat % 256)
    (hhigh : w'.toNat / 2 ^ 16 = w.toNat / 2 ^ 16) :
    fieldRsv w' = fieldRsv w ∧ fieldAlph w' = fieldAlph w ∧ fieldOp w' = fieldOp w := by
  refine ⟨?_, ?_, ?_⟩ <;> apply BitVec.eq_of_toNat_eq
  · simp only [fieldRsv, BitVec.extractLsb'_toNat, Nat.shiftRight_eq_div_pow, hhigh]
  · rw [fieldAlph_toNat, fieldAlph_toNat]; omega
  · rw [fieldOp_toNat, fieldOp_toNat]; omega

end Sys2Proof

namespace Sys2Proof.Machine

/-- No command but ENCV evaluates its version operand (R83). -/
theorem ownPart_withVer {i : Instr} (h : i.op ≠ 3) (v : Byte) : ownPart (i.withVer v) = ownPart i := by
  cases i with
  | encv _ _ => exact absurd rfl h
  | enc _ _ | encc _ _ | dec _ _ | decc _ _ | decv _ _ => rfl

/-- No command but ENCV depends on its version operand or on the word in CMD (R83, R198). -/
theorem exec_withVer_setCmd {i : Instr} {s t : State} (hop : i.op ≠ 3) (h : exec i s = .next t) (v : Byte)
    (w : Word) : exec (i.withVer v) { s with cmd := w } = .next { t with cmd := w } := by
  obtain ⟨r, hr, rfl⟩ := (exec_next_iff i s t).1 h
  refine (exec_next_iff ..).2 ⟨r, by rw [ownPart_withVer hop, Instr.alph_withVer]; exact hr, ?_⟩
  cases r <;> rfl

/-- A word that selects a command runs it on the engine's turn (R196, R198). -/
theorem step_legalWord {s : State} {i : Instr} (hturn : s.engineTurn = true) (hword : decodeCmd s.cmd = .ok i) :
    step s = exec i s := by
  rw [step, if_pos hturn, engineStep, hword]

/-! ### The statements -/

/-- Settles O29: a text of symbols decodes, and DEC answers what it decodes to. -/
theorem decCompletes : Obligations.DecCompletes := by
  intro s input a ver hready hmem
  have hdec := fromBase58_eq_some hmem
  obtain ⟨t, hx, hdone⟩ := exec_ready_done (i := .dec a.tag ver) hready rfl (decResult_of_decoded hdec)
  exact ⟨_, t, hdec, hx, hdone⟩

/-- Settles O30: the four bytes given as the tag are the checksum DECC computes. -/
theorem deccCompletes : Obligations.DeccCompletes := by
  intro s input payload tag a ver hready hdec _ htag
  rw [htag, ← checksum_none] at hdec
  exact exec_ready_done hready rfl (deccResult_of_tagged hdec)

/-- Settles O31: the four bytes given as the tag are the checksum DECV computes. -/
theorem decvCompletes : Obligations.DecvCompletes := by
  intro s input payload tag version a hint hready hdec _ htag
  rw [htag, ← checksum_none, ← checksum_some] at hdec
  exact exec_ready_done hready rfl (decvResult_of_tagged hdec)

/-- Settles O35: below its threshold a command is TooShort, from it on the last four bytes decide, and DEC has none. -/
theorem shortDecodingCompletesWithTooShort : Obligations.ShortDecodingCompletesWithTooShort := by
  intro s input d a ver hready hdec
  rw [← statusFailure_tooShort]
  exact ⟨fun hshort => exec_ready_failed hready rfl (deccResult_of_short hdec hshort),
    fun hshort => exec_ready_failed hready rfl (decvResult_of_short hdec hshort),
    fun hlong t => status_ne_of_ownPart_ne hready rfl (deccResult_ne_tooShort hdec hlong),
    fun hlong t => status_ne_of_ownPart_ne hready rfl (decvResult_ne_tooShort hdec hlong),
    exec_ready_done hready rfl (decResult_of_decoded hdec)⟩

/-- Settles O36: each command compares its tag as a whole, which differs exactly when one of its bytes does. -/
theorem wrongTagCompletesWithChecksumMismatch : Obligations.WrongTagCompletesWithChecksumMismatch := by
  intro s input payload tag a ver hready htag
  exact ⟨fun hdec => exec_ready_tagCompared hready rfl htag (deccResult_of_append hdec htag),
    fun version hdec => exec_ready_tagCompared hready rfl htag (decvResult_of_append hdec htag)⟩

/-- Settles O43: both words select no command, or the same one with another version, which reads neither it nor CMD. -/
theorem versionFieldIsIgnoredButByEncv : Obligations.VersionFieldIsIgnoredButByEncv := by
  rintro s t w w' hturn rfl hencv hlow hhigh hstep
  obtain ⟨hrsv, halph, hop⟩ := fields_eq_of_toNat_eq hlow hhigh
  have hturn' : State.engineTurn { s with cmd := w' } = true := hturn
  have hdec' := decodeCmd_of_same_fields hrsv halph hop
  cases hdec : decodeCmd s.cmd with
  | error e =>
    rw [hdec] at hdec'
    rw [step_illegalWord hturn (by rw [hdec]; rfl)] at hstep
    obtain rfl := Host.Outcome.next.inj hstep
    exact step_illegalWord hturn' (by rw [hdec']; rfl)
  | ok i =>
    rw [hdec] at hdec'
    rw [step_legalWord hturn hdec] at hstep
    obtain ⟨-, hiop, -, -⟩ := fields_of_decodeCmd_ok hdec
    have hi : i.op ≠ 3 := hiop ▸ mt (fieldOp_eq_iff s.cmd 3).1 hencv
    rw [step_legalWord hturn' hdec']
    exact exec_withVer_setCmd hi hstep _ w'

/-- Settles O58: the text decodes to the bytes encoded (R152), and the tag of a version and a payload is the tag of the
version followed by the payload (R111); four bytes are too few for DECV. -/
theorem checksummedAndVersionedTextsCross : Obligations.ChecksummedAndVersionedTextsCross := by
  intro s a x
  have hdecode : ∀ bytes, fromBase58 (s.cfg.alphabets.row a) (toBase58 (s.cfg.alphabets.row a) bytes) = some bytes :=
    decodingAnEncodingGivesItBack _ (s.cfg.row_ok a)
  refine ⟨fun v p hready => ?_, fun v p hready => ?_, fun hready => ?_⟩
  · rw [checksum_some] at hready
    exact exec_ready_done hready rfl (deccResult_of_tagged (hdecode _))
  · rw [← checksum_some] at hready
    exact exec_ready_done hready rfl (decvResult_of_tagged (hdecode _))
  · have hshort : (checksum [] none).length < 5 := by rw [length_checksum]; omega
    have hown := decvResult_of_short (hdecode (checksum [] none)) hshort
    rw [← statusFailure_tooShort]
    exact exec_ready_failed hready rfl hown

/-- Settles O59: a STATUS of success tells of a result, which a checksummed decode gives for tagged bytes alone. -/
theorem successMeansMatchingTag : Obligations.SuccessMeansMatchingTag := by
  intro s t input a ver hready hst
  refine ⟨fun hx => ?_, fun hx => ?_⟩ <;>
    obtain ⟨out, v, hok, hdone⟩ := exists_ok_of_exec_success hready rfl hx hst
  · obtain ⟨rfl, hdec⟩ := decoded_of_deccResult_ok hok
    exact ⟨out, hdec, hdone⟩
  · exact ⟨v, out, decoded_of_decvResult_ok hok, hdone⟩

end Sys2Proof.Machine

/-! SUPPORT. The proofs of the statements on acceptance, completion and command errors (60_exceptions.md), with the
lemmas they need: the STATUS each result completes with, what a failed command leaves, the order of priority among the
errors, and which STATUS values the results of each command range over. -/

namespace Sys2Proof.Machine

/-! ### Acceptance and the engine's turn (R195, R196, R198) -/

/-- A word placed by launchWord is the engine's very next turn. -/
@[simp] theorem State.engineTurn_launchWord (s : State) (w : Word) : (s.launchWord w).engineTurn = true := by
  simp [State.engineTurn]

theorem decodeCmd_of_decodeTableWord {w : Nat} {i : Instr} (h : decodeTableWord 32 w = some i) :
    decodeCmd (tableWord 32 w) = .ok i := by
  rw [decodeTableWord, if_pos (le_refl 32), decodeLanes_lanes] at h
  cases hdec : decodeCmd (tableWord 32 w) with
  | ok j => rw [hdec] at h; cases h; rfl
  | error e => rw [hdec] at h; cases h

/-! ### The errors found before the input is read (R191, R192) -/

/-- A legal tag passes the first precheck and an input longer than IN fails the second (R192, R194). -/
theorem precheck_long {cfg : Config} {inLen : Word} {alph : BitVec 4} (htag : alph.toNat ≤ 3)
    (hlong : cfg.inCap < inLen.toNat) : precheck cfg inLen alph = .error .lengthError := by
  obtain ⟨a, rfl⟩ := exists_tag htag
  rw [precheck_tag, if_pos hlong]

/-! ### What a failed command leaves (R197, R199) -/

@[simp] theorem statusErr_failure (e : ErrorKind) : statusErr (statusFailure e) = errCode e := by cases e <;> decide

/-- Beside STATUS.ERR a failed command writes the same STATUS whatever its error (R197). -/
theorem statusFailure_and_mask (e : ErrorKind) : statusFailure e &&& 0xFFFFF0FF = 0x00000006 := by
  cases e <;> decide

/-- A command that ends with FAIL set has completed with an error. -/
theorem exists_err_of_exec_failed {s t : State} {i : Instr} (h : exec i s = .next t)
    (hfail : statusFail t.status = true) : ∃ e, t = s.completeErr e := by
  obtain ⟨r, -, rfl⟩ := (exec_next_iff i s t).1 h
  cases r with
  | ok out ver => simp at hfail
  | err e => exact ⟨e, rfl⟩

/-- What completing with an error leaves, read off STATUS itself (R197). -/
theorem failedWith_completeErr_statusErr (s : State) (e : ErrorKind) :
    FailedWith s (s.completeErr e) (0x00000006 + (statusErr (s.completeErr e).status).setWidth 32 <<< 8) := by
  rw [State.completeErr_status, statusErr_failure]
  exact failedWith_completeErr s e

/-- Two errors taken in one state leave the same but for STATUS, and the same STATUS but for its ERR (R199). -/
theorem completeErr_differ_only_in_err (s : State) (e e' : ErrorKind) :
    (s.completeErr e).status &&& 0xFFFFF0FF = (s.completeErr e').status &&& 0xFFFFF0FF ∧
    s.completeErr e = { s.completeErr e' with status := (s.completeErr e).status } :=
  ⟨(statusFailure_and_mask e).trans (statusFailure_and_mask e').symm, rfl⟩

/-! ### The STATUS a result completes with (R196, R197) -/

/-- STATUS after the completion step for a result. -/
def resultStatus : Result → Word
  | .ok _ _ => statusSuccess
  | .err e => statusFailure e

theorem status_complete (s : State) (r : Result) : (s.complete r).status = resultStatus r := by cases r <;> rfl

/-- STATUS after a checksummed decode that has decoded d and asks for at least `least` bytes (R178, R179). -/
def tagOutcome (least : Nat) (d : List Byte) : Word :=
  if d.length < least then 0x00000306
  else if checksum (d.take (d.length - 4)) none ≠ d.drop (d.length - 4) then 0x00000406
  else 0x00000002

theorem tagOutcome_short {least : Nat} {d : List Byte} (h : d.length < least) : tagOutcome least d = 0x00000306 :=
  if_pos h

theorem tagOutcome_append {least : Nat} {p tag : List Byte} (htag : tag.length = 4) (hlong : least ≤ p.length + 4) :
    tagOutcome least (p ++ tag) = if checksum p none = tag then 0x00000002 else 0x00000406 := by
  have hsplit : (p ++ tag).length - 4 = p.length := by simp [htag]
  have hleast : ¬ (p ++ tag).length < least := by simp [htag]; omega
  simp only [tagOutcome, if_neg hleast, hsplit, List.take_left, List.drop_left, ne_eq, ite_not]

theorem status_decResult (row t : List Byte) :
    resultStatus (decResult row t) = (fromBase58 row t).elim 0x00000206 fun _ => 0x00000002 := by
  rw [decResult]
  cases fromBase58 row t <;> rfl

theorem status_deccResult (row t : List Byte) :
    resultStatus (deccResult row t) = (fromBase58 row t).elim 0x00000206 (tagOutcome 4) := by
  rw [deccResult]
  cases fromBase58 row t with
  | none => rfl
  | some d =>
    simp only [Option.elim_some, tagOutcome]
    split_ifs <;> rfl

/-- DECV's outcome is that of its version and payload together, whose tag it compares (R111, R177). -/
theorem status_decvResult (row t : List Byte) :
    resultStatus (decvResult row t) = (fromBase58 row t).elim 0x00000206 (tagOutcome 5) := by
  cases hd : fromBase58 row t with
  | none => rw [decvResult, hd]; rfl
  | some d =>
    rw [Option.elim_some]
    rcases Nat.lt_or_ge d.length 5 with hshort | hlong
    · rw [decvResult_of_short hd hshort, tagOutcome_short hshort]; rfl
    · cases d with
      | nil => simp at hlong
      | cons version rest =>
        obtain ⟨p, tag, rfl, htag⟩ := exists_append_tag (Nat.le_of_succ_le_succ hlong)
        rw [decvResult_of_append hd htag, ← List.cons_append, tagOutcome_append htag (by simp), checksum_some,
          apply_ite resultStatus]
        rfl

/-- STATUS after the decode command of that OP has decoded d (R175 to R179). -/
def decodedOutcome (op : Nat) (d : List Byte) : Word := if op = 5 then 0x00000002 else tagOutcome (op - 2) d

theorem status_ownPart_encode {i : Instr} (h : i.op.toNat < 4) (row input : List Byte) :
    resultStatus (ownPart i row input) = 0x00000002 := by
  cases i with
  | enc _ _ | encc _ _ | encv _ _ => rfl
  | dec _ _ | decc _ _ | decv _ _ => exact absurd h (by simp [Instr.op])

theorem status_ownPart_decode {i : Instr} (h : 4 ≤ i.op.toNat) (row input : List Byte) :
    resultStatus (ownPart i row input) = (fromBase58 row input).elim 0x00000206 (decodedOutcome i.op.toNat) := by
  cases i with
  | enc _ _ | encc _ _ | encv _ _ => exact absurd h (by simp [Instr.op])
  | dec _ _ => exact status_decResult row input
  | decc _ _ => exact status_deccResult row input
  | decv _ _ => exact status_decvResult row input

/-! ### The order of priority (R193) -/

section
variable {w : Word} {i : Instr} {inCap inLen : Nat} {row input : List Byte}

theorem priorityOutcome_illegalWord (h : (decodeCmd w).toOption = none) :
    PriorityOutcome w inCap inLen row input 0x00000506 := by
  rw [PriorityOutcome, if_pos ((decoderRefusesExactlyReservedWords w).1.1 h)]

/-- For a word that selects a command the list of R193 goes on to the tag, the length and the command's own errors. -/
theorem priorityOutcome_of_decoded (hdec : decodeCmd w = .ok i) (st : Word) :
    PriorityOutcome w inCap inLen row input st =
      if 4 ≤ i.alph.toNat then st = 0x00000106
      else if inCap < inLen then st = 0x00000606
      else if i.op.toNat < 4 then st = 0x00000002
      else if ∃ c ∈ input, c ∉ row then st = 0x00000206
      else ∃ d, fromBase58 row input = some d ∧
        (if i.op.toNat = 5 then st = 0x00000002
         else if d.length < i.op.toNat - 2 then st = 0x00000306
         else if (sha256 (sha256 (d.take (d.length - 4)))).take 4 ≠ d.drop (d.length - 4) then st = 0x00000406
         else st = 0x00000002) := by
  obtain ⟨hrefused, hfields⟩ := decoderRefusesExactlyReservedWords w
  obtain ⟨hop, halph, -⟩ := hfields i hdec
  have hlegal : (decodeCmd w).toOption ≠ none := by rw [hdec]; exact Option.some_ne_none i
  rw [PriorityOutcome, if_neg (mt hrefused.2 hlegal), hop, halph]

/-- Past the prechecks the list of R193 gives the STATUS of the command's own part. -/
theorem priorityOutcome_ownPart (hdec : decodeCmd w = .ok i) (htag : i.alph.toNat ≤ 3) (hlen : inLen ≤ inCap) :
    PriorityOutcome w inCap inLen row input (resultStatus (ownPart i row input)) := by
  rw [priorityOutcome_of_decoded hdec, if_neg (by omega), if_neg (by omega)]
  rcases Nat.lt_or_ge i.op.toNat 4 with hencode | hdecode
  · rw [if_pos hencode]
    exact status_ownPart_encode hencode row input
  rw [if_neg (by omega), status_ownPart_decode hdecode]
  by_cases hbad : ∃ c ∈ input, c ∉ row
  · rw [if_pos hbad]
    obtain ⟨c, hc, hrow⟩ := hbad
    rw [fromBase58_eq_none hc hrow]; rfl
  · rw [if_neg hbad]
    push Not at hbad
    refine ⟨_, fromBase58_eq_some hbad, ?_⟩
    rw [fromBase58_eq_some hbad, Option.elim_some, decodedOutcome, tagOutcome, checksum_none]
    split_ifs <;> rfl

end

/-! ### Which STATUS values occur (R202) -/

/-- Every input that fits the default IN buffer is the input of some state. -/
theorem exists_ready {input : List Byte} (h : input.length ≤ 512) : ∃ s, s.cfg = defaultConfig ∧ Ready s input :=
  ⟨{ State.reset with inLen := BitVec.ofNat 32 input.length, inBuf := Memory.ofBytes 0 input }, rfl,
    by simp; omega, h, fun k _ => Memory.read_ofBytes_zero input k⟩

/-- A text of few bytes fits the IN buffer, so every short byte sequence is decoded somewhere (R143, R152). -/
theorem exists_ready_decoding {d : List Byte} (h : d.length ≤ 300) :
    ∃ (s : State) (a : Alphabet) (input : List Byte), Ready s input ∧
      fromBase58 (s.cfg.alphabets.row a) input = some d := by
  have hlen := length_toBase58_le (defaultConfig.alphabets.row .bitcoin) d
  obtain ⟨s, hcfg, hready⟩ := exists_ready (input := toBase58 (defaultConfig.alphabets.row .bitcoin) d) (by omega)
  exact ⟨s, .bitcoin, _, hready, by rw [hcfg]; exact decodingAnEncodingGivesItBack _ (Config.row_ok ..) d⟩

/-- The byte 0x00 is no symbol of the default rows, so some input does not decode (R100, R145). -/
theorem exists_ready_not_decoding :
    ∃ (s : State) (a : Alphabet) (input : List Byte), Ready s input ∧
      fromBase58 (s.cfg.alphabets.row a) input = none := by
  obtain ⟨s, hcfg, hready⟩ := exists_ready (input := [0x00]) (by simp)
  have hrow : (0x00 : Byte) ∉ defaultConfig.alphabets.row .bitcoin := by decide
  exact ⟨s, .bitcoin, _, hready, by rw [hcfg]; exact fromBase58_eq_none List.mem_cons_self hrow⟩

/-- A command of the mnemonic can end with that STATUS. -/
def EndsWith (m : Mnemonic) (st : Word) : Prop :=
  ∃ alph ver s t, exec (m.instr alph ver) s = .next t ∧ t.status = st

/-- A command ends with the STATUS of a failed precheck or of its own part, and both prechecks can fail (R194). -/
theorem endsWith_iff {m : Mnemonic} {g : List Byte → List Byte → Word}
    (hg : ∀ alph ver row input, resultStatus (ownPart (m.instr alph ver) row input) = g row input) (st : Word) :
    EndsWith m st ↔ st = 0x00000106 ∨ st = 0x00000606 ∨
      ∃ (s : State) (a : Alphabet) (input : List Byte), Ready s input ∧ g (s.cfg.alphabets.row a) input = st := by
  have halph : ∀ alph ver, (m.instr alph ver).alph = alph := fun _ _ => by cases m <;> rfl
  constructor
  · rintro ⟨alph, ver, s, t, hx, rfl⟩
    obtain ⟨r, hr, rfl⟩ := (exec_next_iff ..).1 hx
    rw [status_complete]
    rcases evaluate_cases s.cfg s.inLen s.inBuf (m.instr alph ver).alph (ownPart (m.instr alph ver)) with
      ⟨-, e⟩ | ⟨-, -, e⟩ | ⟨-, -, -, e⟩ | ⟨a, input, -, hcap, hin, hlen, e⟩ <;> rw [e] at hr
    · cases hr; exact .inl rfl
    · cases hr; exact .inr (.inl rfl)
    · cases hr
    · cases hr
      obtain ⟨-, hread⟩ := (Memory.readRange_eq_some ..).1 hin
      refine .inr (.inr ⟨s, a, input, ⟨hlen.symm, by omega, fun k hk => ?_⟩, (hg ..).symm⟩)
      simpa using hread k (by omega)
  · rintro (rfl | rfl | ⟨s, a, input, hready, rfl⟩)
    · exact ⟨4, 0, State.reset, _, exec_of_precheck_error (precheck_bad_tag _ _ (by rw [halph]; decide)), rfl⟩
    · exact ⟨0, 0, { State.reset with inLen := 513 }, _,
        exec_of_precheck_error (precheck_long (by rw [halph]; decide) (by decide)), rfl⟩
    · exact ⟨a.tag, 0, s, _, exec_ready hready a _ (halph ..), (status_complete ..).trans (hg ..)⟩

theorem exists_encode_outcome_iff (st : Word) :
    (∃ (s : State) (_ : Alphabet) (input : List Byte), Ready s input ∧ 0x00000002 = st) ↔ st = 0x00000002 := by
  obtain ⟨s, -, hready⟩ := exists_ready (input := []) (by simp)
  exact ⟨fun ⟨_, _, _, _, h⟩ => h.symm, fun h => ⟨s, .bitcoin, [], hready, h.symm⟩⟩

/-- A decode command ends with InvalidCharacter or with what it makes of the bytes decoded, each of whose outcomes some
short byte sequence has (R145). -/
theorem exists_decode_outcome_iff {f : List Byte → Word} {values : List Word} (hmem : ∀ d, f d ∈ values)
    (hshort : ∀ v ∈ values, ∃ d, d.length ≤ 300 ∧ f d = v) (st : Word) :
    (∃ (s : State) (a : Alphabet) (input : List Byte), Ready s input ∧
      (fromBase58 (s.cfg.alphabets.row a) input).elim 0x00000206 f = st) ↔ st = 0x00000206 ∨ st ∈ values := by
  constructor
  · rintro ⟨s, a, input, -, rfl⟩
    cases fromBase58 (s.cfg.alphabets.row a) input with
    | none => exact .inl rfl
    | some d => exact .inr (hmem d)
  · rintro (rfl | hst)
    · obtain ⟨s, a, input, hready, hnone⟩ := exists_ready_not_decoding
      exact ⟨s, a, input, hready, by rw [hnone]; rfl⟩
    · obtain ⟨d, hd, rfl⟩ := hshort st hst
      obtain ⟨s, a, input, hready, hsome⟩ := exists_ready_decoding hd
      exact ⟨s, a, input, hready, by rw [hsome]; rfl⟩

theorem tagOutcome_mem (least : Nat) (d : List Byte) :
    tagOutcome least d ∈ [0x00000002, 0x00000306, 0x00000406] := by
  rw [tagOutcome]
  split_ifs <;> decide

/-- Four bytes can differ from any tag. -/
theorem exists_other_tag (c : List Byte) : ∃ tag : List Byte, tag.length = 4 ∧ c ≠ tag := by
  by_cases h : c = List.replicate 4 0
  · exact ⟨List.replicate 4 1, rfl, h ▸ by decide⟩
  · exact ⟨List.replicate 4 0, rfl, h⟩

/-- Each outcome of a tag comparison occurs: a payload with its tag, no bytes at all, and a payload with another tag. -/
theorem exists_tagOutcome {least : Nat} (hlo : 1 ≤ least) (hhi : least ≤ 300) :
    ∀ v ∈ [0x00000002, 0x00000306, 0x00000406], ∃ d, d.length ≤ 300 ∧ tagOutcome least d = v := by
  obtain ⟨p, hp⟩ : ∃ p : List Byte, p.length = least - 4 := ⟨List.replicate _ 0, List.length_replicate⟩
  have hlen : ∀ tag : List Byte, tag.length = 4 → (p ++ tag).length ≤ 300 := by
    intro tag htag; rw [List.length_append]; omega
  have happend : ∀ tag : List Byte, tag.length = 4 →
      tagOutcome least (p ++ tag) = if checksum p none = tag then 0x00000002 else 0x00000406 :=
    fun tag htag => tagOutcome_append htag (by omega)
  simp only [List.forall_mem_cons]
  refine ⟨?_, ⟨[], by simp, tagOutcome_short hlo⟩, ?_, by simp⟩
  · exact ⟨_, hlen _ (length_checksum ..), (happend _ (length_checksum ..)).trans (if_pos rfl)⟩
  · obtain ⟨tag, htag, hne⟩ := exists_other_tag (checksum p none)
    exact ⟨_, hlen tag htag, (happend tag htag).trans (if_neg hne)⟩

theorem endsWith_encode_iff {m : Mnemonic}
    (h : ∀ alph ver row input, resultStatus (ownPart (m.instr alph ver) row input) = 0x00000002) (st : Word) :
    EndsWith m st ↔ st ∈ [0x00000002, 0x00000106, 0x00000606] := by
  rw [endsWith_iff h, exists_encode_outcome_iff]
  simp only [List.mem_cons, List.not_mem_nil, or_false]
  tauto

theorem endsWith_dec_iff (st : Word) :
    EndsWith .dec st ↔ st ∈ [0x00000002, 0x00000106, 0x00000206, 0x00000606] := by
  rw [endsWith_iff (m := .dec) (fun _ _ => status_decResult), exists_decode_outcome_iff (values := [0x00000002])
    (fun _ => List.mem_singleton_self _) (fun v hv => ⟨[], by simp, (List.mem_singleton.1 hv).symm⟩)]
  simp only [List.mem_cons, List.not_mem_nil, or_false]
  tauto

theorem endsWith_checkedDecode_iff {m : Mnemonic} {least : Nat} (hlo : 1 ≤ least) (hhi : least ≤ 300)
    (h : ∀ alph ver row input, resultStatus (ownPart (m.instr alph ver) row input) =
      (fromBase58 row input).elim 0x00000206 (tagOutcome least)) (st : Word) :
    EndsWith m st ↔ st ∈ [0x00000002, 0x00000106, 0x00000206, 0x00000306, 0x00000406, 0x00000606] := by
  rw [endsWith_iff h, exists_decode_outcome_iff (tagOutcome_mem least) (exists_tagOutcome hlo hhi)]
  simp only [List.mem_cons, List.not_mem_nil, or_false]
  tauto

/-! ### The statements -/

/-- Settles O33: a legal tag and a long input fail the precheck, which comes before IN is read. -/
theorem longInputCompletesWithLengthError : Obligations.LongInputCompletesWithLengthError :=
  fun s _ htag hlong => ⟨_, exec_of_precheck_error (precheck_long htag hlong), failedWith_completeErr s .lengthError⟩

/-- Settles O37: the decoder and the two prechecks come first in that order, then the command's own part. -/
theorem firstErrorInPriorityIsReported : Obligations.FirstErrorInPriorityIsReported := by
  intro s row input hturn hrow hinput
  cases hdec : decodeCmd s.cmd with
  | error e =>
    have hword : (decodeCmd s.cmd).toOption = none := by rw [hdec]; rfl
    exact ⟨_, step_illegalWord hturn hword, priorityOutcome_illegalWord hword⟩
  | ok i =>
    rw [step_legalWord hturn hdec]
    rcases le_or_gt 4 i.alph.toNat with hbad | hlegal
    · refine ⟨_, exec_of_precheck_error (precheck_bad_tag _ _ hbad), ?_⟩
      rw [priorityOutcome_of_decoded hdec, if_pos hbad]; rfl
    have htag : i.alph.toNat ≤ 3 := by omega
    rcases Nat.lt_or_ge s.cfg.inCap s.inLen.toNat with hlong | hfits
    · refine ⟨_, exec_of_precheck_error (precheck_long htag hlong), ?_⟩
      rw [priorityOutcome_of_decoded hdec, if_neg (by omega), if_pos hlong]; rfl
    · obtain ⟨a, ha⟩ := exists_tag htag
      obtain ⟨-, -, halph, -⟩ := fields_of_decodeCmd_ok hdec
      obtain rfl : row = s.cfg.alphabets.row a := hrow a (by rw [← ha, halph, fieldAlph_toNat])
      refine ⟨_, exec_ready (hinput hfits) a i ha, ?_⟩
      rw [status_complete]
      exact priorityOutcome_ownPart hdec htag hfits

/-- Settles O39: both prechecks of every command can fail; beyond them an encode command only succeeds, and what a decode
command can answer some short text brings about. -/
theorem outcomesOfEachCommand : Obligations.OutcomesOfEachCommand := by
  intro st
  refine ⟨endsWith_encode_iff (m := .enc) (fun _ _ _ _ => rfl) st,
    endsWith_encode_iff (m := .encc) (fun _ _ _ _ => rfl) st,
    endsWith_encode_iff (m := .encv) (fun _ _ _ _ => rfl) st, endsWith_dec_iff st,
    endsWith_checkedDecode_iff (m := .decc) (by omega) (by omega) (fun _ _ => status_deccResult) st,
    endsWith_checkedDecode_iff (m := .decv) (by omega) (by omega) (fun _ _ => status_decvResult) st, ?_⟩
  constructor
  · rintro ⟨s, t, hturn, hword, hstep, rfl⟩
    obtain rfl := Host.Outcome.next.inj ((step_illegalWord hturn hword).symm.trans hstep)
    rfl
  · rintro rfl
    exact ⟨State.reset.launchWord 0, _, State.engineTurn_launchWord .., decodeCmd_zero,
      step_illegalWord (State.engineTurn_launchWord ..) decodeCmd_zero, rfl⟩

/-- Settles O40: whatever fails takes an error in the state it found, and taking an error writes the same but for
STATUS.ERR. -/
theorem failedCommandsDifferOnlyInStatus : Obligations.FailedCommandsDifferOnlyInStatus := by
  refine ⟨fun s t u i j hi hj ht hu => ?_, fun s t u j hturn hword hstep hj hu => ?_⟩
  · obtain ⟨e, rfl⟩ := exists_err_of_exec_failed hi ht
    obtain ⟨e', rfl⟩ := exists_err_of_exec_failed hj hu
    exact ⟨failedWith_completeErr_statusErr s e, failedWith_completeErr_statusErr s e',
      completeErr_differ_only_in_err s e e'⟩
  · obtain rfl := Host.Outcome.next.inj ((step_illegalWord hturn hword).symm.trans hstep)
    obtain ⟨e', rfl⟩ := exists_err_of_exec_failed hj hu
    exact ⟨failedWith_completeErr s .illegalCommand, completeErr_differ_only_in_err s .illegalCommand e'⟩

/-- Settles O7: the engine's turn decodes CMD and runs the command, and a word just placed has its turn at once. -/
theorem stepRunsTheDecodedCommand : Obligations.StepRunsTheDecodedCommand :=
  ⟨fun _ _ => step_legalWord,
    fun s w _ h => step_legalWord (s.engineTurn_launchWord (tableWord 32 w)) (decodeCmd_of_decodeTableWord h)⟩

/-- Settles O8: the engine's turn takes IllegalCommand before it looks at anything else. -/
theorem illegalWordCompletesWithIllegalCommand : Obligations.IllegalWordCompletesWithIllegalCommand :=
  fun s hturn hword => ⟨_, step_illegalWord hturn hword, failedWith_completeErr s .illegalCommand⟩

/-- Settles O14: an idle block accepts the word, and a busy one refuses every write. -/
theorem cmdWriteIsAcceptance : Obligations.CmdWriteIsAcceptance :=
  fun s w => ⟨
    fun hidle => ⟨s.accept w, busWrite_cmd hidle w, rfl, rfl, ⟨_, _, rfl, rfl⟩, fun _ => rfl, rfl, rfl, rfl⟩,
    fun hbusy => writesWhileBusyAreRefused s 0x0000 4 w hbusy⟩

end Sys2Proof.Machine

/-! SUPPORT. The proofs of the statements on reset and on completion (70_reset_and_hazards.md), with the lemmas they need:
when it is not the engine's turn, what the moves before the completion step keep, and that this step is not refused. -/

namespace Sys2Proof.Machine

/-! ### Until the completion step (R14, R60, R233) -/

/-- A command in flight waits exactly while the outside world has a move left and busy time is left (R196, R233). -/
theorem engineTurn_eq_false_iff (s : State) :
    s.engineTurn = false ↔ (s.busy = true → s.events ≠ [] ∧ 0 < s.busyLeft) := by
  cases hbusy : s.busy with
  | false => simp [State.engineTurn, hbusy]
  | true => simp [State.engineTurn, hbusy, Nat.pos_iff_ne_zero]

/-- t still holds the command in flight in s, its input and its configuration (R60). -/
structure SameCommand (s t : State) : Prop where
  cmd : t.cmd = s.cmd
  inLen : t.inLen = s.inLen
  inBuf : t.inBuf = s.inBuf
  cfg : t.cfg = s.cfg
  status : t.status = s.status

theorem SameCommand.refl (s : State) : SameCommand s s := ⟨rfl, rfl, rfl, rfl, rfl⟩

theorem SameCommand.trans {s t u : State} (h : SameCommand s t) (h' : SameCommand t u) : SameCommand s u :=
  ⟨h'.cmd.trans h.cmd, h'.inLen.trans h.inLen, h'.inBuf.trans h.inBuf, h'.cfg.trans h.cfg, h'.status.trans h.status⟩

theorem SameCommand.busy {s t : State} (h : SameCommand s t) : t.busy = s.busy := congrArg statusBusy h.status

theorem SameCommand.inputWritten {s t : State} (h : SameCommand s t) (hin : InputWritten s) : InputWritten t := by
  rw [InputWritten, h.inLen, h.inBuf, h.cfg]
  exact hin

/-- While a command in flight waits, a step serves one move, uses up one unit of the busy time, and keeps the command. -/
theorem step_waiting {s : State} (hbusy : s.busy = true) (hturn : s.engineTurn = false) (hrst : NoResetInFlight s) :
    ∃ t, step s = .next t ∧ t.busyLeft + 1 = s.busyLeft ∧ SameCommand s t := by
  obtain ⟨hne, hleft⟩ := (engineTurn_eq_false_iff s).1 hturn hbusy
  obtain ⟨e, rest, hev⟩ := List.exists_cons_of_ne_nil hne
  have hhead := noResetInFlight_head hrst hleft
  have he : e ≠ .rst := fun h => hhead (by rw [hev, h]; rfl)
  obtain ⟨hcmd, hinLen, hinBuf, hcfg, hstatus, hused⟩ := hostMove_busy s e rest hbusy he
  exact ⟨_, step_hostMove hturn hev, by omega, hcmd, hinLen, hinBuf, hcfg, hstatus⟩

/-- Unless it is reset, a command in flight gets its turn within its busy time (R233). -/
theorem exists_engineTurn {s : State} (hbusy : s.busy = true) (hrst : NoResetInFlight s) :
    ∃ k u, k ≤ s.busyLeft ∧ Sys2Proof.core.run k s = .next u ∧ SameCommand s u ∧ u.engineTurn = true := by
  induction hleft : s.busyLeft generalizing s with
  | zero => exact ⟨0, s, le_rfl, rfl, .refl s, by simp [State.engineTurn, hbusy, hleft]⟩
  | succ n ih =>
    cases hturn : s.engineTurn with
    | true => exact ⟨0, s, Nat.zero_le _, rfl, .refl s, hturn⟩
    | false =>
      obtain ⟨t, hstep, hused, hsame⟩ := step_waiting hbusy hturn hrst
      obtain ⟨k, u, hk, hrun, hsame', huturn⟩ :=
        ih (hsame.busy.trans hbusy) (noResetInFlight_step hrst hstep hused) (by omega)
      exact ⟨k + 1, u, by omega, (run_succ s t k hstep).trans hrun, hsame.trans hsame', huturn⟩

/-! ### The completion step (R196, R197, R210) -/

/-- A command whose input is written is not refused (R39). -/
theorem exec_completes {s : State} (hin : InputWritten s) (i : Instr) :
    ∃ r, exec i s = .next (s.complete r) := by
  cases hr : evaluate s.cfg s.inLen s.inBuf i.alph (ownPart i) with
  | some r => exact ⟨r, (exec_next_iff ..).2 ⟨r, hr, rfl⟩⟩
  | none =>
    obtain ⟨-, hcap, k, hk, hnone⟩ := (evaluate_eq_none_iff ..).1 hr
    have hsome := hin hcap k hk
    rw [hnone] at hsome
    cases hsome

/-- On the engine's turn a written input is enough for a completion, whatever word CMD holds (R191, R196, R197). -/
theorem step_completes {s : State} (hturn : s.engineTurn = true) (hin : InputWritten s) :
    ∃ r, step s = .next (s.complete r) := by
  cases hword : decodeCmd s.cmd with
  | ok i => rw [step_legalWord hturn hword]; exact exec_completes hin i
  | error e => exact ⟨.err .illegalCommand, step_illegalWord hturn (by rw [hword]; rfl)⟩

/-! ### The statements -/

/-- Settles O16: the moves before the turn keep the command and use up the busy time, and the turn ends the command. -/
theorem everyBusyCommandCompletes : Obligations.EveryBusyCommandCompletes := by
  intro s hbusy hin hrst
  obtain ⟨k, u, hk, hrun, hsame, hturn⟩ := exists_engineTurn hbusy hrst
  obtain ⟨r, hstep⟩ := step_completes hturn (hsame.inputWritten hin)
  exact ⟨k, u, _, hk, hrun, hsame.cmd, hsame.inLen, hsame.inBuf, hsame.cfg, busy_of_engineTurn hturn, hstep,
    statusDone_complete u r, State.busy_complete u r⟩

/-- Settles O11: while it is not the engine's turn the step is the move `rst`, which leaves an idle block. -/
theorem resetDuringCommandAbandonsIt : Obligations.ResetDuringCommandAbandonsIt := by
  intro s rest hleft hev
  have hturn : s.engineTurn = false :=
    (engineTurn_eq_false_iff s).2 fun hbusy => ⟨by rw [hev]; exact List.cons_ne_nil _ _, hleft hbusy⟩
  exact ⟨(s.popEvent rest).applyReset, step_hostMove hturn hev, rfl, rfl, rfl, fun _ => ⟨rfl, rfl⟩,
    engineTurn_idle (State.busy_applyReset _), rfl, rfl, rfl, rfl⟩

end Sys2Proof.Machine
